-- ==== Sys2Proof/Word.lean ====
section
/-! DEFINITION. The word types of the machine (00_scope.md R5: registers and addresses are 64 bits;
30_encoding.md R45: an instruction word is 32 bits). Plain names only: every operation on fields and on byte
order stands in Decode.lean or under Machine/. -/

namespace Sys2Proof

/-- One byte of memory. -/
abbrev Byte := BitVec 8

/-- An instruction word, 32 bits (30_encoding.md R45; `[from general knowledge]` there). -/
abbrev InstrWord := BitVec 32

/-- A general register, an address, the program counter: 64 bits (00_scope.md R5, 10_state.md R12). -/
abbrev Word := BitVec 64

/-- A virtual machine identifier: a natural number below 2^16 (10_state.md R21). -/
abbrev Vmid := BitVec 16

end Sys2Proof
end

