-- ==== Sys2Proof/Syntax.lean ====
section
/-! DEFINITION. The instructions of spec/opcode_table.json, one constructor per row. -/

namespace Sys2Proof

/-- The two System instructions. `t` is the register number of `<Xt>`; 31 when `<Xt>` is omitted
(30_encoding.md R58). -/
inductive Instr where
  /-- `TLBI RVAAE1OS, <Xt>`: 40_tlbi_rvaae1os.md R60, encoding 30_encoding.md R46. -/
  | tlbiRvaae1os (t : Nat)
  /-- `TLBI RVAAE1OSNXS, <Xt>`: 40_tlbi_rvaae1os.md R61, encoding 30_encoding.md R47. -/
  | tlbiRvaae1osnxs (t : Nat)
deriving DecidableEq, Repr

end Sys2Proof
end

