-- ==== Sys2Proof/WellFormed.lean ====
section
/-! DEFINITION. Which terms of `Instr` are instructions: the register number fits its 5-bit field. -/

namespace Sys2Proof

/-- 10_state.md R11: `t` is a 5-bit number, 0 to 31. -/
def Instr.wf : Instr → Bool
  | .tlbiRvaae1os t => decide (t < 32)
  | .tlbiRvaae1osnxs t => decide (t < 32)

end Sys2Proof
end

