-- ==== Sys2Proof/Decode.lean ====
section
/-! DEFINITION. The decoder, total on words and on bytes, rejecting by name (30_encoding.md R45 to R47, R59), and
after it the encoder, written from the same field values. Byte order: 20_memory.md R31, least significant byte
at the lowest address. -/

namespace Sys2Proof

/-- Why bytes are not an instruction of this spec. -/
inductive DecodeError where
  /-- 30_encoding.md R59: every other word is "not in this spec". -/
  | notInThisSpec (word : InstrWord)
  /-- Fewer than the four bytes of an instruction (30_encoding.md R45: every instruction is 32 bits long). -/
  | truncated
deriving DecidableEq, Repr

/-- The fields of format `SYS` (30_encoding.md R45). -/
structure SysFields where
  fixed : BitVec 10
  l : BitVec 1
  op0 : BitVec 2
  op1 : BitVec 3
  crn : BitVec 4
  crm : BitVec 4
  op2 : BitVec 3
  rt : BitVec 5
deriving DecidableEq, Repr

/-- 30_encoding.md R45: bits 31:22, 21, 20:19, 18:16, 15:12, 11:8, 7:5, 4:0. -/
def sysFields (w : InstrWord) : SysFields :=
  { fixed := w.extractLsb' 22 10
    l := w.extractLsb' 21 1
    op0 := w.extractLsb' 19 2
    op1 := w.extractLsb' 16 3
    crn := w.extractLsb' 12 4
    crm := w.extractLsb' 8 4
    op2 := w.extractLsb' 5 3
    rt := w.extractLsb' 0 5 }

/-- The part of the two rows' field values that they share: the System instruction space (R45), and
`op0 = 0b01`, `op1 = 0b000`, `CRm = 0b0101`, `op2 = 0b011` (R46, R47). -/
def SysFields.isRvaae1osSpace (f : SysFields) : Bool :=
  f.fixed == 0b1101010100#10 && f.l == 0b0#1 && f.op0 == 0b01#2 && f.op1 == 0b000#3
    && f.crm == 0b0101#4 && f.op2 == 0b011#3

/-- Decoding one word: R46 (`CRn = 0b1000`), R47 (`CRn = 0b1001`), R59 (every other word). -/
def decodeWord (w : InstrWord) : Except DecodeError Instr :=
  let f := sysFields w
  if f.isRvaae1osSpace then
    if f.crn == 0b1000#4 then .ok (.tlbiRvaae1os f.rt.toNat)
    else if f.crn == 0b1001#4 then .ok (.tlbiRvaae1osnxs f.rt.toNat)
    else .error (.notInThisSpec w)
  else .error (.notInThisSpec w)

/-- 20_memory.md R31: the word of four bytes, the first at the lowest address. -/
def wordOfBytes (b0 b1 b2 b3 : Byte) : InstrWord := b3 ++ b2 ++ b1 ++ b0

/-- 20_memory.md R31: the four bytes of a word, lowest address first. -/
def bytesOfWord (w : InstrWord) : List Byte :=
  [w.extractLsb' 0 8, w.extractLsb' 8 8, w.extractLsb' 16 8, w.extractLsb' 24 8]

/-- Decoding a list of bytes: the instruction of its first four and the bytes after them. -/
def decodeBytes : List Byte → Except DecodeError (Instr × List Byte)
  | b0 :: b1 :: b2 :: b3 :: rest =>
    match decodeWord (wordOfBytes b0 b1 b2 b3) with
    | .ok i => .ok (i, rest)
    | .error e => .error e
  | _ => .error .truncated

/-- The host's question (its numbering of bits is 30_encoding.md's): the instruction read from the word whose
bits are `w`, `nbits` of them given by the table, the bits above them zero. -/
def decodeTableWord (nbits w : Nat) : Option Instr :=
  match decodeBytes (bytesOfWord (BitVec.ofNat 32 (w % 2 ^ nbits))) with
  | .ok (i, _) => some i
  | .error _ => none

/-- A word of format `SYS` from its fields (30_encoding.md R45), `L` = 0. -/
def sysWord (op0 : BitVec 2) (op1 : BitVec 3) (crn crm : BitVec 4) (op2 : BitVec 3) (rt : BitVec 5) : InstrWord :=
  0b1101010100#10 ++ 0b0#1 ++ op0 ++ op1 ++ crn ++ crm ++ op2 ++ rt

/-- The word of an instruction: 30_encoding.md R46, R47. -/
def encode : Instr → InstrWord
  | .tlbiRvaae1os t => sysWord 0b01#2 0b000#3 0b1000#4 0b0101#4 0b011#3 (BitVec.ofNat 5 t)
  | .tlbiRvaae1osnxs t => sysWord 0b01#2 0b000#3 0b1001#4 0b0101#4 0b011#3 (BitVec.ofNat 5 t)

/-- The bytes of an instruction as memory holds them. -/
def encodeBytes (i : Instr) : List Byte := bytesOfWord (encode i)

end Sys2Proof
end

