-- ==== Sys2Proof/Config.lean ====
section
/-! DEFINITION. What is fixed for a machine: the parameters of 00_scope.md R5, as plain data (State holds one
`Config`, so that a statement over every state quantifies over every configuration: log 1), and the model's
free values, opaque constants with no body. -/

namespace Sys2Proof

/-- An Exception level (10_state.md R13, 60_exceptions.md R99). -/
inductive EL where
  | el0 | el1 | el2 | el3
deriving DecidableEq, Repr, Inhabited

/-- A Security state (10_state.md R20; the names are general knowledge there, D30). -/
inductive SecurityState where
  | secure | nonSecure | realm
deriving DecidableEq, Repr

/-- An agent that holds a TLB (10_state.md R23): a PE or a System MMU, each with its number. -/
inductive Agent where
  | pe (n : Nat)
  | smmu (n : Nat)
deriving DecidableEq, Repr

/-- `BASEADDR_UPPER` (30_encoding.md R53): the bits of BaseADDR above the field are zero, or copies of the
field's top bit, or the parameter is left open. -/
inductive BaseAddrUpper where
  | zero | sign | leftOpen
deriving DecidableEq, Repr

/-- `TG_RESERVED` (30_encoding.md R56, D9): what `TG == 0b00` does. -/
inductive TgReserved where
  | refuse | noGuarantee
deriving DecidableEq, Repr

/-- `TTL01_16K_NOLPA2` (30_encoding.md R57, D10). -/
inductive Ttl01At16K where
  | treatAs00 | noGuarantee
deriving DecidableEq, Repr

/-- `TTL01_MISALIGNED` (40_tlbi_rvaae1os.md R77 (e), D12). -/
inductive Ttl01Misaligned where
  | defined | noGuarantee
deriving DecidableEq, Repr

/-- `TrapEntry` (00_scope.md R5, 60_exceptions.md R96, D20): what taking an exception does to the PE. `faultMark` is the
spec's choice, `architectural` the entry R96 describes for this architecture, `leftOpen` the OPEN parameter itself, any
function of the state and the outcome (log 12, log 13). -/
inductive TrapEntry where
  | faultMark | architectural | leftOpen
deriving DecidableEq, Repr

/-- The parameters of 00_scope.md R5. `osh` holds the pairs (PE number, other agent of its Outer Shareable
domain); a PE is always in its own domain (`inOsh`). `END_PC(pe)` is what `endPc` lists for the PE, and `endPcElse`
for every PE it does not list (`endPcOf`).
`completionObserver` is the set of instructions that wait for completion (20_memory.md R38). -/
structure Config where
  featTlbirange : Bool
  featTlbios : Bool
  featXs : Bool
  featHcx : Bool
  featFgt : Bool
  featLpa2 : Bool
  featD128 : Bool
  featRme : Bool
  haveEl2 : Bool
  haveEl3 : Bool
  secstateNoEl3 : SecurityState
  agents : List Agent
  osh : List (Nat × Agent)
  baseAddrUpper : BaseAddrUpper
  tgReserved : TgReserved
  ttl01At16K : Ttl01At16K
  ttl01Misaligned : Ttl01Misaligned
  trapEntry : TrapEntry
  completionObserver : List Instr
  endPc : List (Nat × Word)
  endPcElse : Word
deriving DecidableEq, Repr

/-- FREE VALUE (log 19). Which of {zero, sign} the machine has when `BASEADDR_UPPER` is left open: true is sign.
No body: nothing constrains it. -/
opaque Config.freeUpperSign : Bool

/-- FREE VALUE (log 13). The offset from `VBAR_ELx` at which an exception taken from one Exception level to
another continues, in units of 4 bytes (10_state.md R12: instruction addresses are multiples of 4). 60_exceptions.md
R96 says "at an offset" and gives no number. No body: nothing constrains it. -/
opaque Config.vectorOffsetWords : EL → EL → BitVec 62

end Sys2Proof
end

