-- ==== Sys2Proof/Machine/State.lean ====
section
/-! DEFINITION. The state of the machine as plain data, the reasons a step stops, and the state after reset.
INVENTORY.md's '## State' lists every piece with its rule. -/

namespace Sys2Proof.Machine

/-! ### One PE -/

/-- The process state (10_state.md R13): the current Exception level; and whether interrupts are masked, which
only exception entry touches (60_exceptions.md R96). -/
structure PState where
  el : EL
  intMasked : Bool
deriving DecidableEq, Repr, Inhabited

/-- The named fields of `HCR_EL2` (10_state.md R15, D4: named components, no bit positions). -/
structure HcrEl2 where
  e2h : Bool
  tge : Bool
  ttlb : Bool
  ttlbos : Bool
deriving DecidableEq, Repr, Inhabited

/-- The named fields of `SCR_EL3` (10_state.md R16). -/
structure ScrEl3 where
  ns : Bool
  nse : Bool
  eel2 : Bool
  fgtEn : Bool
  hxEn : Bool
deriving DecidableEq, Repr, Inhabited

/-- The named field of `HFGITR_EL2` (10_state.md R17); one bit serves both variants. -/
structure HfgitrEl2 where
  tlbirvaae1os : Bool
deriving DecidableEq, Repr, Inhabited

/-- The named fields of `HCRX_EL2` (10_state.md R17). -/
structure HcrxEl2 where
  fnXs : Bool
  fgtNxs : Bool
deriving DecidableEq, Repr, Inhabited

/-- The named field of `TCR_EL1` (10_state.md R17). -/
structure TcrEl1 where
  ds : Bool
deriving DecidableEq, Repr, Inhabited

/-- A syndrome (60_exceptions.md R90, R91; 93_implementation_defined.md G7): the exception class and the 22
instruction bits of the ISS; `none` is R90's own "no instruction bits recorded". -/
structure Esr where
  ec : BitVec 6
  iss : Option (BitVec 22)
deriving DecidableEq, Repr, Inhabited

/-- The exception registers of one Exception level (60_exceptions.md R96). -/
structure ExcRegs where
  elr : Word
  spsr : PState
  esr : Esr
  vbar : Word
deriving DecidableEq, Repr, Inhabited

/-- An exception outcome of an instruction with what it carries: 60_exceptions.md R90 (`Undefined` and the pc),
R91 (`SystemAccessTrap` with target, code, pc and word). -/
inductive ExcOutcome where
  | undefined (pc : Word)
  | systemAccessTrap (target : EL) (code : BitVec 6) (pc : Word) (word : InstrWord)
deriving DecidableEq, Repr

/-- A processing element. `x` is X0 to X30 (10_state.md R11; X31 has no storage); `vmid` is `CurrentVMID`
(R21); `exc1` to `exc3` are the exception registers of EL1 to EL3; `mark` is the fault mark of 60_exceptions.md
R96, `none` while no exception is recorded. -/
structure PE where
  x : Vector Word 31
  pc : Word
  pstate : PState
  hcrEl2 : HcrEl2
  scrEl3 : ScrEl3
  hfgitrEl2 : HfgitrEl2
  hcrxEl2 : HcrxEl2
  tcrEl1 : TcrEl1
  vmid : Vmid
  exc1 : ExcRegs
  exc2 : ExcRegs
  exc3 : ExcRegs
  mark : Option ExcOutcome
deriving DecidableEq, Repr, Inhabited

/-! ### TLBs, accesses, operations -/

/-- The three translation granules (00_scope.md R9). -/
inductive Granule where
  | g4K | g16K | g64K
deriving DecidableEq, Repr

/-- 64-bit or, with FEAT_D128, 128-bit entries (10_state.md R24). -/
inductive EntryWidth where
  | d64 | d128
deriving DecidableEq, Repr

/-- The translation regime of an entry (10_state.md R24). -/
inductive Regime where
  | el10 | el20 | other
deriving DecidableEq, Repr

/-- A cached translation table entry: 10_state.md R24. `vmid` is a VMID value, `none` being `VMID_NONE`;
`level` an integer, since levels below 1 are implied (91_not_in_source.md N8); `payload` an uninterpreted token. -/
structure TLBEntry where
  stage1 : Bool
  width : EntryWidth
  level : Int
  leaf : Bool
  granule : Granule
  regime : Regime
  security : SecurityState
  vmid : Option Vmid
  asid : Nat
  isGlobal : Bool
  vaLo : Word
  vaHi : Word
  payload : Nat
deriving DecidableEq, Repr

/-- One entry in one agent's TLB. -/
abbrev Cached := Agent × TLBEntry

/-- An in-flight memory access (10_state.md R25): the entries it used, its XS attribute, whether it is complete. -/
structure Access where
  agent : Agent
  used : List TLBEntry
  xs : Bool
  complete : Bool
deriving DecidableEq, Repr

/-- The attribute argument (40_tlbi_rvaae1os.md R82). -/
inductive TlbiAttr where
  | allAttr | excludeXs
deriving DecidableEq, Repr

/-- The shareability argument: always `Shareability_OSH` (00_scope.md R8). -/
inductive Shareability where
  | osh
deriving DecidableEq, Repr

/-- The level argument: always `TLBILevel_Any` (40_tlbi_rvaae1os.md R74). -/
inductive TlbiLevel where
  | any
deriving DecidableEq, Repr

/-- A range of virtual addresses: `BaseADDR` and `RangeLen` bytes (40_tlbi_rvaae1os.md R70, R71). -/
structure AddrRange where
  base : Word
  len : Nat
deriving DecidableEq, Repr

/-- An operation record (40_tlbi_rvaae1os.md R62). `issuer` is the issuing PE's number; `vmid = none` is
`VMID_NONE`; `range` is `none` for the reserved TG, which has no granule and so no range (95_test_vectors.md
V19); `inScope` is the required set of every agent at issue, `todo` what of it is still to be removed (R80). -/
structure TlbiOp where
  issuer : Nat
  security : SecurityState
  regime : Regime
  vmid : Option Vmid
  shareability : Shareability
  level : TlbiLevel
  attr : TlbiAttr
  tg : BitVec 2
  scale : BitVec 2
  num : BitVec 5
  ttl : BitVec 2
  range : Option AddrRange
  guaranteed : Bool
  inScope : List Cached
  todo : List Cached
deriving DecidableEq, Repr

/-- Memory: the bytes written, addresses strictly rising (`Memory.wf`). An address not listed holds no value. -/
abbrev Memory := List Host.Cell

/-! ### Which agent moves -/

/-- One move of an agent of 60_exceptions.md R102. -/
inductive Move where
  /-- PE `n` executes its next instruction. -/
  | run (n : Nat)
  /-- The removal agent of the `k`-th pending operation removes `e` from `TLB(a)` (40_tlbi_rvaae1os.md R81). -/
  | remove (k : Nat) (a : Agent) (e : TLBEntry)
  /-- Agent `a` drops an entry of its own choice (20_memory.md R44). -/
  | discard (a : Agent) (e : TLBEntry)
  /-- `TLBFill`: agent `a` caches an entry (10_state.md R23). -/
  | fill (a : Agent) (e : TLBEntry)
  /-- The `k`-th pending operation, complete, leaves the pending set (40_tlbi_rvaae1os.md R82). -/
  | retire (k : Nat)
  /-- Agent `a` begins a memory access that uses the entries `used` (10_state.md R25). -/
  | beginAccess (a : Agent) (used : List TLBEntry) (xs : Bool)
  /-- The `k`-th access completes. -/
  | endAccess (k : Nat)
deriving DecidableEq, Repr

/-! ### The state -/

/-- The system. `self` is the number of the PE whose registers are `pe`; `others` are the other PEs with their
numbers; `tlb` holds every agent's TLB as pairs; `schedule` says which agents move next (log 9); `cfg` is the
configuration, which no step changes (log 1). -/
structure State where
  cfg : Config
  self : Nat
  pe : PE
  others : List (Nat × PE)
  mem : Memory
  tlb : List Cached
  accesses : List Access
  pending : List TlbiOp
  schedule : List Move
deriving DecidableEq, Repr

/-- FREE VALUE (log 12). The executing PE after an exception outcome, in a machine whose `TrapEntry` is left OPEN
(00_scope.md R5, 60_exceptions.md R96): a function of the state and the outcome. No body: nothing constrains it. -/
opaque freeTrapEntry : State → ExcOutcome → PE

/-- Why the machine stops with a fault. -/
inductive Fault where
  /-- Raised by fetching (Machine/Fetch.lean) when the PE that is to move has recorded an exception outcome:
  60_exceptions.md R96, the mark is never cleared and no handler is in scope. Safe: nothing can be proved of what
  the handler would do. -/
  | exceptionRecorded (o : ExcOutcome)
deriving DecidableEq, Repr

/-- Why the machine gives no meaning. -/
inductive Refusal where
  /-- Raised by exec's arm of an instruction without a meaning; no arm of this model raises it. Safe. -/
  | notModelled (mnemonic : String)
  /-- Raised by fetching: the word at pc is not one of the two (30_encoding.md R59). Safe. -/
  | notInThisSpec (word : InstrWord)
  /-- Raised by fetching: pc is not a multiple of 4 (20_memory.md R32, D3). Safe. -/
  | misalignedPc (pc : Word)
  /-- Raised by fetching: a byte of the word at pc holds no value (70_reset_and_hazards.md R119). Safe. -/
  | noWordAtPc (pc : Word)
  /-- Raised by both instructions: `TG == 0b00` with `TG_RESERVED = refuse` (30_encoding.md R56, D9). Safe. -/
  | reservedGranule
  /-- Raised by both instructions: `SCR_EL3.{NSE, NS} == 0b10` with FEAT_RME (10_state.md R20, D30). Safe. -/
  | reservedSecurityState
deriving DecidableEq, Repr

/-! ### Reset -/

/-- The exception registers at reset: the spec gives no value (log 6). -/
def ExcRegs.reset : ExcRegs :=
  { elr := 0, spsr := { el := .el0, intMasked := false }, esr := { ec := 0, iss := none }, vbar := 0 }

/-- A PE at reset: 10_state.md R28 gives no value; log 4 and log 6 name these. EL3 is PRESUMED
(70_reset_and_hazards.md R111: the highest implemented Exception level). -/
def PE.reset : PE :=
  { x := Vector.replicate 31 0
    pc := 0
    pstate := { el := .el3, intMasked := true }
    hcrEl2 := { e2h := false, tge := false, ttlb := false, ttlbos := false }
    scrEl3 := { ns := false, nse := false, eel2 := false, fgtEn := false, hxEn := false }
    hfgitrEl2 := { tlbirvaae1os := false }
    hcrxEl2 := { fnXs := false, fgtNxs := false }
    tcrEl1 := { ds := false }
    vmid := 0
    exc1 := ExcRegs.reset
    exc2 := ExcRegs.reset
    exc3 := ExcRegs.reset
    mark := none }

/-- The configuration that `State.reset` stands in (log 2): one PE, every feature and level implemented, the
spec's choices of 00_scope.md R5 but for `TG_RESERVED` (log 3), `END_PC` the last word address (log 34). -/
def configAtReset : Config :=
  { featTlbirange := true
    featTlbios := true
    featXs := true
    featHcx := true
    featFgt := true
    featLpa2 := true
    featD128 := true
    featRme := true
    haveEl2 := true
    haveEl3 := true
    secstateNoEl3 := .nonSecure
    agents := [.pe 0]
    osh := []
    baseAddrUpper := .sign
    tgReserved := .noGuarantee
    ttl01At16K := .noGuarantee
    ttl01Misaligned := .noGuarantee
    trapEntry := .faultMark
    completionObserver := []
    endPc := []
    endPcElse := 0xFFFFFFFFFFFFFFFC }

/-- The machine right after reset. -/
def State.reset : State :=
  { cfg := configAtReset
    self := 0
    pe := PE.reset
    others := []
    mem := []
    tlb := []
    accesses := []
    pending := []
    schedule := [] }

end Sys2Proof.Machine
end

