-- ==== Sys2Proof/Machine/Flags.lean ====
section
/-! DEFINITION. The control bits an instruction reads and what they decide. This hardware has no condition flags
(10_state.md R13); its flags are the one-bit System register fields: whether EL2 is enabled, the Security state,
the current VMID, the traps of EL1, the completion attribute of the plain variant. -/

namespace Sys2Proof.Machine

/-- `HCR_EL2` as read: every field is 0 when EL2 is not implemented (10_state.md R15, D17). -/
def State.hcr (s : State) : HcrEl2 :=
  if s.cfg.haveEl2 then s.pe.hcrEl2 else { e2h := false, tge := false, ttlb := false, ttlbos := false }

/-- `EL2Enabled()` for a PE (10_state.md R18). -/
def PE.el2Enabled (cfg : Config) (p : PE) : Bool :=
  cfg.haveEl2 && (if cfg.haveEl3 then p.scrEl3.ns || p.scrEl3.eel2 else true)

/-- `EL2Enabled()` of the executing PE (10_state.md R18). -/
def State.el2Enabled (s : State) : Bool := s.pe.el2Enabled s.cfg

/-- `IsHCRXEL2Enabled()` (10_state.md R19). -/
def State.hcrxEnabled (s : State) : Bool :=
  s.cfg.featHcx && (!s.cfg.haveEl3 || s.pe.scrEl3.hxEn) && s.el2Enabled

/-- `SecState()` (10_state.md R20); `none` is the reserved value `0b10` of `{NSE, NS}`. -/
def State.secState (s : State) : Option SecurityState :=
  if !s.cfg.haveEl3 then some s.cfg.secstateNoEl3
  else if !s.cfg.featRme then some (if s.pe.scrEl3.ns then .nonSecure else .secure)
  else match s.pe.scrEl3.nse, s.pe.scrEl3.ns with
    | false, false => some .secure
    | false, true => some .nonSecure
    | true, true => some .realm
    | true, false => none

/-- `VMID[]` (10_state.md R21); `none` is `VMID_NONE`. -/
def State.vmidArg (s : State) : Option Vmid := if s.el2Enabled then some s.pe.vmid else none

/-- `HCR_EL2.<E2H, TGE> == '11'` (40_tlbi_rvaae1os.md R63). -/
def State.hostRegime (s : State) : Bool := s.hcr.e2h && s.hcr.tge

/-- Whether the two instructions are present (30_encoding.md R54). -/
def present (cfg : Config) : Bool := cfg.featTlbirange && cfg.featTlbios

/-- T1 (60_exceptions.md R92). -/
def State.trapT1 (s : State) : Bool := s.el2Enabled && s.hcr.ttlb

/-- T2 (60_exceptions.md R92). -/
def State.trapT2 (s : State) : Bool := s.el2Enabled && s.hcr.ttlbos

/-- T3, the fine-grained trap of the plain variant (60_exceptions.md R92). -/
def State.trapT3 (s : State) : Bool :=
  s.el2Enabled && s.cfg.featFgt && (!s.cfg.haveEl3 || s.pe.scrEl3.fgtEn) && s.pe.hfgitrEl2.tlbirvaae1os

/-- T3n, the fine-grained trap of the nXS variant (60_exceptions.md R93), `FEAT_HCX` a conjunct as printed. -/
def State.trapT3n (s : State) : Bool :=
  s.el2Enabled && s.cfg.featFgt && (!s.cfg.haveEl3 || s.pe.scrEl3.fgtEn) && s.cfg.featHcx
    && (!s.hcrxEnabled || !s.pe.hcrxEl2.fgtNxs) && s.pe.hfgitrEl2.tlbirvaae1os

/-- The attribute of the plain variant at EL1 (40_tlbi_rvaae1os.md R60, R82): `HCRX_EL2.FnXS` makes it the nXS twin. -/
def State.plainAttrAtEl1 (s : State) : TlbiAttr :=
  if s.cfg.featXs && s.cfg.featHcx && s.hcrxEnabled && s.pe.hcrxEl2.fnXs then .excludeXs else .allAttr

end Sys2Proof.Machine
end

