-- ==== Sys2Proof/Machine/Ops.lean ====
section
/-! DEFINITION. The named operations over memory, registers, PEs and TLBs, and taking an exception. -/

namespace Sys2Proof.Machine

/-! ### Memory -/

/-- The byte at an address; an address nothing has written holds no value (log 8). -/
def Memory.read : Memory → Nat → Option Byte
  | [], _ => none
  | (k, v) :: m, a => if a = k then some v else Memory.read m a

/-- Writing one byte, the addresses kept strictly rising. -/
def Memory.write : Memory → Nat → Byte → Memory
  | [], a, b => [(a, b)]
  | (k, v) :: m, a, b =>
    if a < k then (a, b) :: (k, v) :: m
    else if a = k then (a, b) :: m
    else (k, v) :: Memory.write m a b

/-- Writing a list of bytes from an address up. -/
def Memory.writeBytes : Memory → Nat → List Byte → Memory
  | m, _, [] => m
  | m, a, b :: bs => Memory.writeBytes (Memory.write m a b) (a + 1) bs

/-- The canonical form: addresses strictly rising, within the 64-bit address space (20_memory.md R34). Every
listed byte differs from what an unlisted address reads as, which is no value. -/
abbrev Memory.wf (m : Memory) : Prop := (m.map Prod.fst).Pairwise (· < ·) ∧ ∀ c ∈ m, c.1 < 2 ^ 64

/-! ### State updates -/

/-- Replace the executing PE. -/
def State.setPe (s : State) (p : PE) : State := { s with pe := p }

/-- Replace the TLBs. -/
def State.setTlb (s : State) (l : List Cached) : State := { s with tlb := l }

/-- Replace the pending operations. -/
def State.setPending (s : State) (l : List TlbiOp) : State := { s with pending := l }

/-- Replace the access records. -/
def State.setAccesses (s : State) (l : List Access) : State := { s with accesses := l }

/-- Replace the schedule. -/
def State.setSchedule (s : State) (l : List Move) : State := { s with schedule := l }

/-! ### Registers and PEs -/

/-- `X[t, 64]` (10_state.md R10, R11): register 31 reads zero. (Only an ill-formed instruction names a register
above 31; it reads zero too, log 39.) -/
def State.readX (s : State) (t : Nat) : Word := if h : t < 31 then s.pe.x[t] else 0

/-- `pc <- pc + 4`, modulo 2^64 (10_state.md R12). -/
def State.advancePc (s : State) : State := s.setPe { s.pe with pc := s.pe.pc + 4 }

/-- The PE of number `n`, if there is one. -/
def State.peOf (s : State) (n : Nat) : Option PE := if n = s.self then some s.pe else s.others.lookup n

/-- `EEL2(p)` of PE `n` (60_exceptions.md R103). -/
def State.eel2Of (s : State) (n : Nat) : Option Bool := (s.peOf n).map (·.scrEl3.eel2)

/-- The other PEs once PE `n` has been taken out of them and `p`, numbered `k`, put in its place. -/
def replacePe (n k : Nat) (p : PE) : List (Nat × PE) → List (Nat × PE)
  | [] => []
  | (m, q) :: r => if m = n then (k, p) :: r else (m, q) :: replacePe n k p r

/-- PE `n` becomes the executing PE; `none` if the system has no such PE. -/
def State.switchTo (s : State) (n : Nat) : Option State :=
  if n = s.self then some s
  else match s.others.lookup n with
    | some p => some { s with self := n, pe := p, others := replacePe n s.self s.pe s.others }
    | none => none

/-- Whether an agent is in the Outer Shareable domain of PE `n` (60_exceptions.md R101); `n` itself always is. -/
def inOsh (cfg : Config) (n : Nat) (a : Agent) : Bool :=
  a == .pe n || (cfg.agents.contains a && cfg.osh.contains (n, a))

/-! ### Taking an exception (60_exceptions.md R96) -/

/-- The address of the instruction an outcome carries. -/
def ExcOutcome.pc : ExcOutcome → Word
  | .undefined pc => pc
  | .systemAccessTrap _ _ pc _ => pc

/-- The instruction bits of the syndrome (93_implementation_defined.md G7): Op0, Op2, Op1, CRn, Rt, CRm,
Direction (0 for a System instruction). -/
def issOfWord (w : InstrWord) : BitVec 22 :=
  let f := sysFields w
  f.op0 ++ f.op2 ++ f.op1 ++ f.crn ++ f.rt ++ f.crm ++ 0b0#1

/-- The syndrome of an outcome: R90 (class 0x00, no instruction bits recorded), R91 (the code is the class). -/
def ExcOutcome.esr : ExcOutcome → Esr
  | .undefined _ => { ec := 0x00, iss := none }
  | .systemAccessTrap _ code _ word => { ec := code, iss := some (issOfWord word) }

/-- The Exception level an outcome is taken to: R90 (from EL0 to EL1, or to EL2 when EL2 is enabled and
`HCR_EL2.TGE == 1`; otherwise the current level), R91 (the target it names). -/
def State.excTarget (s : State) : ExcOutcome → EL
  | .undefined _ =>
    match s.pe.pstate.el with
    | .el0 => if s.el2Enabled && s.hcr.tge then .el2 else .el1
    | .el1 => .el1
    | .el2 => .el2
    | .el3 => .el3
  | .systemAccessTrap target _ _ _ => target

/-- The exception registers of a level. (EL0 has none; no exception is taken to it, and the name is total by
giving EL1's.) -/
def PE.excRegs (p : PE) : EL → ExcRegs
  | .el0 => p.exc1
  | .el1 => p.exc1
  | .el2 => p.exc2
  | .el3 => p.exc3

/-- Replace the exception registers of a level. -/
def PE.setExcRegs (p : PE) (l : EL) (r : ExcRegs) : PE :=
  match l with
  | .el0 => { p with exc1 := r }
  | .el1 => { p with exc1 := r }
  | .el2 => { p with exc2 := r }
  | .el3 => { p with exc3 := r }

/-- The offset from `VBAR_ELx`: a free value, a multiple of 4 (log 13). -/
def vectorOffset (source target : EL) : Word := Config.vectorOffsetWords source target ++ 0b00#2

/-- Entry as R96 describes it for this architecture: the return address in `ELR_ELx`, the process state in
`SPSR_ELx`, the syndrome in `ESR_ELx`, interrupts masked, the target level, and pc at an offset from `VBAR_ELx`. -/
def PE.enter (p : PE) (target : EL) (o : ExcOutcome) : PE :=
  let r := p.excRegs target
  { p.setExcRegs target { elr := o.pc, spsr := p.pstate, esr := o.esr, vbar := r.vbar } with
    pc := r.vbar + vectorOffset p.pstate.el target
    pstate := { el := target, intMasked := true } }

/-- `TrapEntry(state, outcome)` (60_exceptions.md R96): the fault mark, the spec's choice, or the architecture's
entry, or, left open, any change of the PE. Precise in all: no operation is issued and no TLB changes. -/
def State.takeException (s : State) (o : ExcOutcome) : State :=
  match s.cfg.trapEntry with
  | .faultMark => s.setPe { s.pe with mark := some o }
  | .architectural => s.setPe (s.pe.enter (s.excTarget o) o)
  | .leftOpen => s.setPe (freeTrapEntry s o)

/-- `raise Undefined` (60_exceptions.md R90). -/
def State.raiseUndefined (s : State) : State := s.takeException (.undefined s.pe.pc)

/-- `raise SystemAccessTrap(EL2, 0x18)` by instruction `i` (60_exceptions.md R91). -/
def State.raiseSystemAccessTrap (s : State) (i : Instr) : State :=
  s.takeException (.systemAccessTrap .el2 0x18 s.pe.pc (encode i))

/-! ### TLBs -/

/-- An entry that can exist (10_state.md R24): `vaLo <= vaHi`, and 128-bit only with FEAT_D128. -/
def entryOk (cfg : Config) (e : TLBEntry) : Bool :=
  decide (e.vaLo.toNat ≤ e.vaHi.toNat) && (e.width == .d64 || cfg.featD128)

/-- An entry leaves `TLB(a)`, and with it every `todo(a)` (40_tlbi_rvaae1os.md R81). -/
def State.evict (s : State) (p : Cached) : State :=
  (s.setTlb (s.tlb.filter (· != p))).setPending
    (s.pending.map fun op => { op with todo := op.todo.filter (· != p) })

/-- `TLBFill` (10_state.md R23): an agent gains an entry. -/
def State.fillTlb (s : State) (p : Cached) : State :=
  if s.cfg.agents.contains p.1 && entryOk s.cfg p.2 && !s.tlb.contains p then s.setTlb (s.tlb ++ [p]) else s

end Sys2Proof.Machine
end

