-- ==== Sys2Proof/Machine/Operands.lean ====
section
/-! DEFINITION. The register argument `Xt`: its fields, the granule, the start and the extent of the range, and the
cases in which the operation guarantees nothing (30_encoding.md R48 to R53, R56, R57; 40_tlbi_rvaae1os.md R70 to
R73, R76, R77). -/

namespace Sys2Proof.Machine

/-- The record `Decode(Xt)` (30_encoding.md R49). -/
structure XtFields where
  res0 : BitVec 16
  tg : BitVec 2
  scale : BitVec 2
  num : BitVec 5
  ttl : BitVec 2
  baFld : BitVec 37
deriving DecidableEq, Repr

/-- `Decode(Xt)`: 30_encoding.md R48, R49. -/
def decodeXt (v : Word) : XtFields :=
  { res0 := v.extractLsb' 48 16
    tg := v.extractLsb' 46 2
    scale := v.extractLsb' 44 2
    num := v.extractLsb' 39 5
    ttl := v.extractLsb' 37 2
    baFld := v.extractLsb' 0 37 }

/-- The granule of a TG value (30_encoding.md R50); `0b00` is reserved. -/
def granuleOfTg (tg : BitVec 2) : Option Granule :=
  if tg = 0b01#2 then some .g4K
  else if tg = 0b10#2 then some .g16K
  else if tg = 0b11#2 then some .g64K
  else none

/-- `gshift` (30_encoding.md R50). -/
def Granule.shift : Granule → Nat
  | .g4K => 12
  | .g16K => 14
  | .g64K => 16

/-- `gsize`, in bytes (30_encoding.md R50). -/
def Granule.size (g : Granule) : Nat := 2 ^ g.shift

/-- `bshift` (30_encoding.md R53): 16 with FEAT_LPA2 and `TCR_EL1.DS == 1` (R52), else `gshift`. -/
def baseShift (lpa2Ds : Bool) (g : Granule) : Nat := if lpa2Ds then 16 else g.shift

/-- Whether the bits above the field's top bit are copies of it (30_encoding.md R53). -/
def upperIsSign (u : BaseAddrUpper) : Bool :=
  match u with
  | .zero => false
  | .sign => true
  | .leftOpen => Config.freeUpperSign

/-- `BaseADDR` (30_encoding.md R52, R53): the field at bit `bshift`, zeros below it, `Upper(BAfld[36])` above. -/
def baseAddr (u : BaseAddrUpper) (bshift : Nat) (baFld : BitVec 37) : Word :=
  (if upperIsSign u then baFld.signExtend 64 else baFld.zeroExtend 64) <<< bshift

/-- `BaseADDR` of a decoded operand at granule `g` (30_encoding.md R53). -/
def baseOf (cfg : Config) (ds : Bool) (d : XtFields) (g : Granule) : Word :=
  baseAddr cfg.baseAddrUpper (baseShift (cfg.featLpa2 && ds) g) d.baFld

/-- `RangeLen` in bytes (40_tlbi_rvaae1os.md R71), computed exactly. -/
def rangeLen (num : BitVec 5) (scale : BitVec 2) (g : Granule) : Nat :=
  (num.toNat + 1) * 2 ^ (5 * scale.toNat + 1) * g.size

/-- `Upper = BaseADDR + RangeLen`, exclusive, an unbounded natural (40_tlbi_rvaae1os.md R71, R73). -/
def AddrRange.upper (r : AddrRange) : Nat := r.base.toNat + r.len

/-- The range of an operation; none for the reserved TG (40_tlbi_rvaae1os.md R70, R71). -/
def rangeOf (cfg : Config) (ds : Bool) (d : XtFields) : Option AddrRange :=
  (granuleOfTg d.tg).map fun g => { base := baseOf cfg ds d g, len := rangeLen d.num d.scale g }

/-- `TTL == 0b01` at the 16K granule without FEAT_LPA2 (30_encoding.md R57). -/
def ttl01Reserved (cfg : Config) (d : XtFields) : Bool :=
  !cfg.featLpa2 && d.tg == 0b10#2 && d.ttl == 0b01#2

/-- The TTL of the operation: `treat_as_00` replaces the reserved value by `0b00` (30_encoding.md R57). -/
def effectiveTtl (cfg : Config) (d : XtFields) : BitVec 2 :=
  if ttl01Reserved cfg d && cfg.ttl01At16K == .treatAs00 then 0b00#2 else d.ttl

/-- The BaseADDR slice that must be zero for level 2 alignment (40_tlbi_rvaae1os.md R76): [20:12], [24:14], [28:16]. -/
def level2Misaligned (g : Granule) (base : Word) : Bool :=
  match g with
  | .g4K => base.extractLsb' 12 9 != 0
  | .g16K => base.extractLsb' 14 11 != 0
  | .g64K => base.extractLsb' 16 13 != 0

/-- The BaseADDR slice of level 1 alignment (40_tlbi_rvaae1os.md R77 (e)): [29:12], [35:14], [41:16]. -/
def level1Misaligned (g : Granule) (base : Word) : Bool :=
  match g with
  | .g4K => base.extractLsb' 12 18 != 0
  | .g16K => base.extractLsb' 14 22 != 0
  | .g64K => base.extractLsb' 16 26 != 0

/-- `Unpredictable(op)` (40_tlbi_rvaae1os.md R76). -/
def unpredictable (ttl : BitVec 2) (g : Granule) (base : Word) : Bool := ttl == 0b10#2 && level2Misaligned g base

/-- `op.guaranteed` (40_tlbi_rvaae1os.md R77): false in exactly the cases (a) to (f). `agreed` is false in case (d),
where the prose and the pseudocode differ (R65). -/
def guaranteedOf (cfg : Config) (ds agreed : Bool) (d : XtFields) : Bool :=
  match granuleOfTg d.tg with
  | none => false
  | some g =>
    !unpredictable (effectiveTtl cfg d) g (baseOf cfg ds d g)
      && !(ttl01Reserved cfg d && cfg.ttl01At16K == .noGuarantee)
      && agreed
      && !(effectiveTtl cfg d == 0b01#2 && cfg.ttl01Misaligned == .noGuarantee && level1Misaligned g (baseOf cfg ds d g))
      && !(d.baFld.msb && cfg.baseAddrUpper == .leftOpen)

end Sys2Proof.Machine
end

