-- ==== Sys2Proof/Machine/Tlbi.lean ====
section
/-! DEFINITION. The family of the table: the operation both instructions share, `AArch64.TLBI_RVAA`
(40_tlbi_rvaae1os.md R62 to R65, R74 to R80, R83; 60_exceptions.md R103, R104), and the meaning of each instruction
(R60, R61). -/

namespace Sys2Proof.Machine

/-! ### Which entries are required -/

/-- `LevelMatch64(TTL, e)` (40_tlbi_rvaae1os.md R74). -/
def levelMatch64 (ttl : BitVec 2) (e : TLBEntry) : Bool :=
  if ttl = 0b00#2 then true
  else if e.leaf then decide (e.level = ttl.toNat) else decide (e.level < ttl.toNat)

/-- `LevelMatch128(TTL, e)` (40_tlbi_rvaae1os.md R75). -/
def levelMatch128 (cfg : Config) (ttl : BitVec 2) : Bool := cfg.featD128 && ttl == 0b00#2

/-- The level conjunct of `Required` (40_tlbi_rvaae1os.md R78), by the entry's width. -/
def levelMatch (cfg : Config) (ttl : BitVec 2) (e : TLBEntry) : Bool :=
  match e.width with
  | .d64 => levelMatch64 ttl e
  | .d128 => levelMatch128 cfg ttl

/-- `Overlaps(e, lo, upper)`, `upper` exclusive (40_tlbi_rvaae1os.md R83). -/
def overlaps (e : TLBEntry) (r : AddrRange) : Bool :=
  decide (e.vaLo.toNat < r.upper) && decide (r.base.toNat ≤ e.vaHi.toNat)

/-- Whether an operation is one the Secure EL1&0 Note speaks of (60_exceptions.md R103). -/
def TlbiOp.secureEl10 (op : TlbiOp) : Bool := op.security == .secure && op.regime == .el10

/-- `RemoteRequired(op, a, e)`: 60_exceptions.md R103 for a PE, R104 for a System MMU. -/
def remoteRequired (s : State) (op : TlbiOp) (a : Agent) (e : TLBEntry) : Bool :=
  match a with
  | .pe n => n == op.issuer || !op.secureEl10 || !s.cfg.haveEl3 || s.eel2Of n == s.eel2Of op.issuer
  | .smmu _ =>
    op.secureEl10 && s.cfg.haveEl3 && s.eel2Of op.issuer == some false && e.vmid == some 0

/-- `ContextMatch(op, a, e)` (40_tlbi_rvaae1os.md R79): the ASID and the global bit are not compared. -/
def contextMatch (s : State) (op : TlbiOp) (a : Agent) (e : TLBEntry) : Bool :=
  e.security == op.security
    && ((op.regime == .el10 && e.regime == .el10 && (op.vmid == none || e.vmid == op.vmid))
      || (op.regime == .el20 && e.regime == .el20))
    && remoteRequired s op a e

/-- The membership test of `Required(op, a)` (40_tlbi_rvaae1os.md R78). -/
def required (s : State) (op : TlbiOp) (a : Agent) (e : TLBEntry) : Bool :=
  op.guaranteed && e.stage1 && levelMatch s.cfg op.ttl e && some e.granule == granuleOfTg op.tg
    && (match op.range with
      | some r => overlaps e r
      | none => false)
    && contextMatch s op a e

/-- The required sets of every agent of `OSH(op.issuer)`, as pairs (40_tlbi_rvaae1os.md R78, R80). -/
def requiredSet (s : State) (op : TlbiOp) : List Cached :=
  s.tlb.filter fun p => inOsh s.cfg op.issuer p.1 && required s op p.1 p.2

/-! ### The operation -/

/-- `IssueTLBI(op)` (40_tlbi_rvaae1os.md R80): the required sets of this state are recorded and the operation
becomes pending; nothing leaves a TLB in this step. -/
def issueTlbi (op : TlbiOp) (s : State) : State :=
  s.setPending (s.pending ++ [{ op with inScope := requiredSet s op, todo := requiredSet s op }])

/-- The operation record of `TLBI_RVAA`'s arguments (40_tlbi_rvaae1os.md R62), before issue. -/
def buildOp (s : State) (security : SecurityState) (regime : Regime) (vmid : Option Vmid) (attr : TlbiAttr)
    (agreed : Bool) (xt : Word) : TlbiOp :=
  let d := decodeXt xt
  { issuer := s.self
    security := security
    regime := regime
    vmid := vmid
    shareability := .osh
    level := .any
    attr := attr
    tg := d.tg
    scale := d.scale
    num := d.num
    ttl := effectiveTtl s.cfg d
    range := rangeOf s.cfg s.pe.tcrEl1.ds d
    guaranteed := guaranteedOf s.cfg s.pe.tcrEl1.ds agreed d
    inScope := []
    todo := [] }

/-- `TLBI_RVAA(SecState(), regime, vmid, OSH, Any, attr, Xt)` and the pc update that ends both instructions
(40_tlbi_rvaae1os.md R60 to R62). It stops on the reserved Security state (10_state.md R20) and, where `TG_RESERVED`
says refuse, on the reserved TG (30_encoding.md R56). -/
def tlbiRvaa (regime : Regime) (vmid : Option Vmid) (attr : TlbiAttr) (agreed : Bool) (xt : Word) (s : State) :
    Host.Outcome State Fault Refusal :=
  match s.secState with
  | none => .refused .reservedSecurityState
  | some sec =>
    if (decodeXt xt).tg = 0b00#2 ∧ s.cfg.tgReserved = .refuse then .refused .reservedGranule
    else .next (issueTlbi (buildOp s sec regime vmid attr agreed xt) s).advancePc

/-- The call at EL1 (40_tlbi_rvaae1os.md R63): always the EL1&0 regime, `HCR_EL2.{E2H, TGE}` not read (C4). -/
def tlbiAtEl1 (attr : TlbiAttr) (t : Nat) (s : State) : Host.Outcome State Fault Refusal :=
  tlbiRvaa .el10 s.vmidArg attr true (s.readX t) s

/-- The call at EL2 and EL3 (40_tlbi_rvaae1os.md R63, R64): EL2&0 when `HCR_EL2.{E2H, TGE} == {1, 1}`. At EL3 with
EL2 not enabled the prose disagrees and the operation guarantees nothing (R65). -/
def tlbiAtEl2El3 (attr : TlbiAttr) (t : Nat) (s : State) : Host.Outcome State Fault Refusal :=
  if s.hostRegime then tlbiRvaa .el20 none attr (s.pe.pstate.el != .el3 || s.el2Enabled) (s.readX t) s
  else tlbiRvaa .el10 s.vmidArg attr true (s.readX t) s

/-! ### The two instructions -/

/-- `TLBI RVAAE1OS{, <Xt>}`: 40_tlbi_rvaae1os.md R60, the order of its tests 60_exceptions.md R94. -/
def execTlbiRvaae1os (t : Nat) (s : State) : Host.Outcome State Fault Refusal :=
  if !present s.cfg then .next s.raiseUndefined
  else match s.pe.pstate.el with
    | .el0 => .next s.raiseUndefined
    | .el1 =>
      if s.trapT1 || s.trapT2 || s.trapT3 then .next (s.raiseSystemAccessTrap (.tlbiRvaae1os t))
      else tlbiAtEl1 s.plainAttrAtEl1 t s
    | .el2 => tlbiAtEl2El3 .allAttr t s
    | .el3 => tlbiAtEl2El3 .allAttr t s

/-- `TLBI RVAAE1OSNXS{, <Xt>}`: 40_tlbi_rvaae1os.md R61, the order of its tests 60_exceptions.md R94. -/
def execTlbiRvaae1osnxs (t : Nat) (s : State) : Host.Outcome State Fault Refusal :=
  if !present s.cfg then .next s.raiseUndefined
  else if !s.cfg.featXs then .next s.raiseUndefined
  else match s.pe.pstate.el with
    | .el0 => .next s.raiseUndefined
    | .el1 =>
      if s.trapT1 || s.trapT2 || s.trapT3n then .next (s.raiseSystemAccessTrap (.tlbiRvaae1osnxs t))
      else tlbiAtEl1 .excludeXs t s
    | .el2 => tlbiAtEl2El3 .excludeXs t s
    | .el3 => tlbiAtEl2El3 .excludeXs t s

end Sys2Proof.Machine
end

