-- ==== Sys2Proof/Machine/Dispatch.lean ====
section
/-! DEFINITION. exec: one arm per constructor of Instr, each one call of its meaning. -/

namespace Sys2Proof.Machine

def exec (i : Instr) (s : State) : Host.Outcome State Fault Refusal :=
  match i with
  | .tlbiRvaae1os t => Sys2Proof.Machine.execTlbiRvaae1os t s
  | .tlbiRvaae1osnxs t => Sys2Proof.Machine.execTlbiRvaae1osnxs t s

end Sys2Proof.Machine
end

