-- ==== Sys2Proof/Machine/Agents.lean ====
section
/-! DEFINITION. The agents other than a PE's instruction execution (60_exceptions.md R102): when an operation is
complete (20_memory.md R42, R43), the removal agents and when they move of their own accord (40_tlbi_rvaae1os.md R81,
R82; 70_reset_and_hazards.md R119), TLBs gaining and dropping entries
(10_state.md R23, 20_memory.md R44), and memory accesses (10_state.md R25). A move that is not enabled has no effect
(log 10). -/

namespace Sys2Proof.Machine

/-- Whether an access used an entry of the operation's required sets (20_memory.md R42, clause (2)). -/
def Access.usesInScope (r : Access) (op : TlbiOp) : Bool := op.inScope.any fun p => r.used.contains p.2

/-- Whether completion of the operation waits for the access: one of an agent of `OSH(op.issuer)`, incomplete, that
used an in-scope entry; for `ExcludeXS` only if its XS attribute is 0 (20_memory.md R42, R43). -/
def waitsForAccess (cfg : Config) (op : TlbiOp) (r : Access) : Bool :=
  inOsh cfg op.issuer r.agent && r.usesInScope op && !r.complete && !(op.attr == .excludeXs && r.xs)

/-- The operation is complete: every required entry has been removed at least once since issue, and no access it
waits for is left (20_memory.md R42, R43). -/
def State.complete (s : State) (op : TlbiOp) : Bool :=
  op.todo.isEmpty && s.accesses.all fun r => !waitsForAccess s.cfg op r

/-- Removal step of the `k`-th pending operation (40_tlbi_rvaae1os.md R81). -/
def State.removeMove (s : State) (k : Nat) (p : Cached) : State :=
  match s.pending[k]? with
  | some op => if op.todo.contains p then s.evict p else s
  | none => s

/-- The `k`-th pending operation leaves the pending set once complete (40_tlbi_rvaae1os.md R82, 10_state.md R26). -/
def State.retireMove (s : State) (k : Nat) : State :=
  match s.pending[k]? with
  | some op => if s.complete op then s.setPending (s.pending.eraseIdx k) else s
  | none => s

/-- An access begins (10_state.md R25). -/
def State.beginAccessMove (s : State) (a : Agent) (used : List TLBEntry) (xs : Bool) : State :=
  s.setAccesses (s.accesses ++ [{ agent := a, used := used, xs := xs, complete := false }])

/-- The `k`-th access completes (10_state.md R25). -/
def State.endAccessMove (s : State) (k : Nat) : State :=
  s.setAccesses (s.accesses.modify k fun r => { r with complete := true })

/-- One move of an agent that is not a PE's instruction; `run` is Step.lean's. -/
def State.agentMove (s : State) : Move → State
  | .run _ => s
  | .remove k a e => s.removeMove k (a, e)
  | .discard a e => s.evict (a, e)
  | .fill a e => s.fillTlb (a, e)
  | .retire k => s.retireMove k
  | .beginAccess a used xs => s.beginAccessMove a used xs
  | .endAccess k => s.endAccessMove k

/-! ### What the agents of the pending operations do of their own accord -/

/-- The first removal still to be done, the first of `ops` being the `k`-th pending operation. -/
def firstRemoval (k : Nat) : List TlbiOp → Option Move
  | [] => none
  | op :: ops =>
    match op.todo with
    | p :: _ => some (.remove k p.1 p.2)
    | [] => firstRemoval (k + 1) ops

/-- The first complete operation, the first of `ops` being the `k`-th pending operation. -/
def State.firstRetirement (s : State) (k : Nat) : List TlbiOp → Option Move
  | [] => none
  | op :: ops => if s.complete op then some (.retire k) else s.firstRetirement (k + 1) ops

/-- The move the agents of the pending operations make when nothing is scheduled: a removal while one is to be done
(weak fairness: 40_tlbi_rvaae1os.md R81, 70_reset_and_hazards.md R119), else the retirement of a complete operation (R82);
none when neither is enabled (log 9). -/
def State.ownMove (s : State) : Option Move :=
  match firstRemoval 0 s.pending with
  | some m => some m
  | none => s.firstRetirement 0 s.pending

end Sys2Proof.Machine
end

