-- ==== Sys2Proof/Machine/Fetch.lean ====
section
/-! DEFINITION. What the executing PE does when it is its turn: whether it has an instruction to execute, and which
(20_memory.md R31, R32, R38; 30_encoding.md R59; 60_exceptions.md R96; 70_reset_and_hazards.md R119). -/

namespace Sys2Proof.Machine

/-- What the PE finds at its turn. -/
inductive Turn where
  /-- An instruction to execute. -/
  | execute (i : Instr)
  /-- The PE is finished: `pc == END_PC` (70_reset_and_hazards.md R119). It takes no step. -/
  | finished
  /-- The instruction waits for the completion of a TLBI of this PE (20_memory.md R38). -/
  | waiting
  /-- A fault mark is recorded (60_exceptions.md R96). -/
  | stopped (f : Fault)
  /-- Nothing the model gives a meaning to. -/
  | refuse (r : Refusal)
deriving DecidableEq, Repr

/-- `END_PC(pe)` of PE `n` (70_reset_and_hazards.md R119): one address for every PE. -/
def endPcOf (cfg : Config) (n : Nat) : Word := (cfg.endPc.lookup n).getD cfg.endPcElse

/-- The four bytes at pc, lowest address first; none if one of them holds no value. -/
def State.fetchBytes (s : State) : Option (List Byte) :=
  match s.mem.read s.pe.pc.toNat, s.mem.read (s.pe.pc.toNat + 1), s.mem.read (s.pe.pc.toNat + 2),
    s.mem.read (s.pe.pc.toNat + 3) with
  | some b0, some b1, some b2, some b3 => some [b0, b1, b2, b3]
  | _, _, _, _ => none

/-- pc is a multiple of 4 (10_state.md R12). -/
def pcAligned (pc : Word) : Bool := pc.extractLsb' 0 2 == 0b00#2

/-- `CompletionObserver` (20_memory.md R38): the instruction cannot execute while an operation this PE issued is
not complete. -/
def State.mustWait (s : State) (i : Instr) : Bool :=
  s.cfg.completionObserver.contains i && s.pending.any fun op => op.issuer == s.self && !s.complete op

/-- The PE's turn. -/
def State.turn (s : State) : Turn :=
  match s.pe.mark with
  | some o => .stopped (.exceptionRecorded o)
  | none =>
    if endPcOf s.cfg s.self = s.pe.pc then .finished
    else if !pcAligned s.pe.pc then .refuse (.misalignedPc s.pe.pc)
    else match s.fetchBytes with
      | none => .refuse (.noWordAtPc s.pe.pc)
      | some bytes =>
        match decodeBytes bytes with
        | .ok (i, _) => if s.mustWait i then .waiting else .execute i
        | .error (.notInThisSpec w) => .refuse (.notInThisSpec w)
        | .error .truncated => .refuse (.noWordAtPc s.pe.pc)

/-- `END_PC` once a program of one word has been placed at pc: the addresses of 95_test_vectors.md section 7, the
address after the last instruction, where the PE had `END_PC` at the word itself (log 34). -/
def endPcAfterLoad (cfg : Config) (n : Nat) (pc : Word) : Config :=
  if endPcOf cfg n = pc then { cfg with endPc := (n, pc + 4) :: cfg.endPc } else cfg

end Sys2Proof.Machine
end

