-- ==== Sys2Proof/Machine/Step.lean ====
section
/-! DEFINITION. One step of the system: the next move of the schedule, or, when it is empty, a move of the pending
operations' agents if one is enabled, else the executing PE's instruction (60_exceptions.md R102; log 9). -/

namespace Sys2Proof.Machine

/-- The executing PE takes its turn. -/
def runPe (s : State) : Host.Outcome State Fault Refusal :=
  match s.turn with
  | .execute i => exec i s
  | .finished => .next s
  | .waiting => .next s
  | .stopped f => .fault f
  | .refuse r => .refused r

/-- One step of the machine. A `run` of a PE the system does not have is not enabled and has no effect (log 10). -/
def step (s : State) : Host.Outcome State Fault Refusal :=
  match s.schedule with
  | [] =>
    match s.ownMove with
    | some m => .next (s.agentMove m)
    | none => runPe s
  | m :: ms =>
    match m with
    | .run n =>
      match (s.setSchedule ms).switchTo n with
      | some s' => runPe s'
      | none => .next (s.setSchedule ms)
    | m' => .next ((s.setSchedule ms).agentMove m')

/-- `s` with the word `w` (`nbits` bits given, the rest zero) placed at the executing PE's pc, and what the fetch of
the very next step needs: no move before it, no fault mark, and `END_PC` not at the word (log 36). -/
def State.withFetchWord (s : State) (nbits w : Nat) : State :=
  { s with
    cfg := endPcAfterLoad s.cfg s.self s.pe.pc
    pe := { s.pe with mark := none }
    mem := s.mem.writeBytes s.pe.pc.toNat (bytesOfWord (BitVec.ofNat 32 (w % 2 ^ nbits)))
    schedule := if s.ownMove.isSome then [.run s.self] else [] }

end Sys2Proof.Machine
end

