-- ==== Sys2Proof/Safety.lean ====
section
/-! DEFINITION. The terms claims are stated in: the PEs of a system, the invariant every step keeps, what a required
entry's removal means, and the final states of 70_reset_and_hazards.md R119. -/

namespace Sys2Proof.Machine

/-- Every PE of the system with its number, the executing one first. -/
def State.pes (s : State) : List (Nat × PE) := (s.self, s.pe) :: s.others

/-- The entries of one agent's TLB (10_state.md R23). -/
def State.tlbOf (s : State) (a : Agent) : List TLBEntry := (s.tlb.filter (·.1 == a)).map Prod.snd

/-! ### What stays of a PE -/

/-- Between `p` and `q` no general register, System register field, VMID or vector base differs. -/
structure PE.SameRegisters (p q : PE) : Prop where
  x : q.x = p.x
  hcrEl2 : q.hcrEl2 = p.hcrEl2
  scrEl3 : q.scrEl3 = p.scrEl3
  hfgitrEl2 : q.hfgitrEl2 = p.hfgitrEl2
  hcrxEl2 : q.hcrxEl2 = p.hcrxEl2
  tcrEl1 : q.tcrEl1 = p.tcrEl1
  vmid : q.vmid = p.vmid
  vbar1 : q.exc1.vbar = p.exc1.vbar
  vbar2 : q.exc2.vbar = p.exc2.vbar
  vbar3 : q.exc3.vbar = p.exc3.vbar

/-! ### Turns -/

/-- A step of `s0` is the turn of the executing PE of `s`: nothing is scheduled and no agent moves of its own accord, or
`run n` is scheduled and `s` is `s0` after that move has been taken off the schedule and PE `n` made the executing one. -/
abbrev State.givesTurn (s0 s : State) : Prop :=
  (s0.schedule = [] ∧ s0.ownMove = none ∧ s = s0)
    ∨ ∃ n ms, s0.schedule = .run n :: ms ∧ (s0.setSchedule ms).switchTo n = some s

/-! ### The invariant -/

/-- 10_state.md R13, R18: EL3 is current only if implemented, EL2 only if implemented and enabled. -/
abbrev PE.elLegal (cfg : Config) (p : PE) : Prop :=
  (p.pstate.el = .el2 → p.el2Enabled cfg = true) ∧ (p.pstate.el = .el3 → cfg.haveEl3 = true)

/-- 10_state.md R12: instruction addresses are multiples of 4, the vector bases with them. -/
abbrev PE.addressesAligned (p : PE) : Prop :=
  pcAligned p.pc = true ∧ pcAligned p.exc1.vbar = true ∧ pcAligned p.exc2.vbar = true ∧ pcAligned p.exc3.vbar = true

/-- The PEs have distinct numbers, legal Exception levels and aligned addresses. -/
abbrev State.pesOk (s : State) : Prop :=
  (s.pes.map Prod.fst).Nodup ∧ ∀ q ∈ s.pes, q.2.elLegal s.cfg ∧ q.2.addressesAligned

/-- What the invariant asks of a `TrapEntry` left open (log 12): the PE it makes of a sound PE is sound. -/
abbrev trapEntrySound : Prop :=
  ∀ (s : State) (o : ExcOutcome), s.pe.elLegal s.cfg ∧ s.pe.addressesAligned →
    (freeTrapEntry s o).elLegal s.cfg ∧ (freeTrapEntry s o).addressesAligned

/-- 10_state.md R23, R24: each TLB is a set, of entries that can exist, of an agent of AGENTS. -/
abbrev State.tlbOk (s : State) : Prop :=
  s.tlb.Nodup ∧ ∀ p ∈ s.tlb, p.1 ∈ s.cfg.agents ∧ entryOk s.cfg p.2 = true

/-- 40_tlbi_rvaae1os.md R80, R81: what an operation still has to remove was required at issue and is still in the
TLB; what was required is in the issuer's Outer Shareable domain; an operation that guarantees nothing requires
nothing (R77). -/
abbrev TlbiOp.ok (cfg : Config) (tlb : List Cached) (op : TlbiOp) : Prop :=
  (∀ p ∈ op.todo, p ∈ op.inScope ∧ p ∈ tlb) ∧ (∀ p ∈ op.inScope, inOsh cfg op.issuer p.1 = true)
    ∧ (op.guaranteed = false → op.inScope = [])

/-- The part of the invariant that does not speak of the PEs. -/
abbrev State.storesOk (s : State) : Prop :=
  Memory.wf s.mem ∧ s.tlbOk ∧ ∀ op ∈ s.pending, op.ok s.cfg s.tlb

/-- The invariant: canonical memory, sound PEs, TLBs and pending operations. -/
abbrev State.Inv (s : State) : Prop :=
  Memory.wf s.mem ∧ s.pesOk ∧ s.tlbOk ∧ ∀ op ∈ s.pending, op.ok s.cfg s.tlb

/-! ### The effect of issuing -/

/-- The operation record the two instructions build from the value `xt` of the register (40_tlbi_rvaae1os.md R62,
30_encoding.md R48, R57, 40_tlbi_rvaae1os.md R70, R71, R77) and what it requires of each TLB at issue (R78, R80). -/
structure TlbiOp.IssuedBy (op : TlbiOp) (s : State) (xt : Word) (agreed : Bool) : Prop where
  issuer : op.issuer = s.self
  shareability : op.shareability = .osh
  level : op.level = .any
  tg : op.tg = xt.extractLsb' 46 2
  scale : op.scale = xt.extractLsb' 44 2
  num : op.num = xt.extractLsb' 39 5
  ttl : op.ttl = effectiveTtl s.cfg (decodeXt xt)
  range : op.range = rangeOf s.cfg s.pe.tcrEl1.ds (decodeXt xt)
  guaranteed : op.guaranteed = guaranteedOf s.cfg s.pe.tcrEl1.ds agreed (decodeXt xt)
  inScope : ∀ p, p ∈ op.inScope ↔ p ∈ s.tlb ∧ inOsh s.cfg s.self p.1 = true ∧ required s op p.1 p.2 = true
  todo : op.todo = op.inScope

/-- The next state of an instruction that issues: pc advanced by 4, one operation added to the pending set, nothing
else changed (40_tlbi_rvaae1os.md R60, R61, R80). -/
def State.afterIssue (s : State) (op : TlbiOp) : State :=
  { s with pe := { s.pe with pc := s.pe.pc + 4 }, pending := s.pending ++ [op] }

/-- The operand does not stop the instruction: its TG is not the reserved value, or `TG_RESERVED` lets it execute
(30_encoding.md R56). -/
abbrev State.operandAccepted (s : State) (xt : Word) : Prop :=
  xt.extractLsb' 46 2 ≠ 0b00#2 ∨ s.cfg.tgReserved = .noGuarantee

/-! ### Removal of required entries -/

/-- Every pending operation that required `p` still has it to remove, or `p` is out of the TLB. (20_memory.md R42: it
holds from issue on while `TLBFill` does not create `p` again.) -/
abbrev State.removalTracked (p : Cached) (s : State) : Prop :=
  ∀ op ∈ s.pending, p ∈ op.inScope → p ∈ op.todo ∨ p ∉ s.tlb

/-- The next move of the schedule is not the `TLBFill` that creates `p`. -/
abbrev State.nextMoveIsNotFill (p : Cached) (s : State) : Prop := s.schedule.head? ≠ some (.fill p.1 p.2)

/-- The removal agent's schedule for what the `k`-th operation has still to remove. -/
def removalMoves (k : Nat) (todo : List Cached) : List Move := todo.map fun p => .remove k p.1 p.2

/-! ### Fairness -/

/-- An infinite run of the machine. -/
def IsRun (r : Nat → State) : Prop := ∀ n, step (r n) = .next (r (n + 1))

/-- The removal step of `p` is enabled (40_tlbi_rvaae1os.md R81). -/
abbrev State.removalEnabled (p : Cached) (s : State) : Prop := ∃ op ∈ s.pending, p ∈ op.todo

/-- Weak fairness of the removal agents (40_tlbi_rvaae1os.md R81, 70_reset_and_hazards.md R119): no removal step stays
enabled for ever. (The step disables itself, so this is the usual "infinitely often disabled or taken".) -/
def WeaklyFair (r : Nat → State) : Prop := ∀ (p : Cached) (n : Nat), ∃ k, n ≤ k ∧ ¬ (r k).removalEnabled p

/-! ### Final states -/

/-- A PE is finished when its pc is its END_PC (70_reset_and_hazards.md R119). -/
abbrev peFinished (cfg : Config) (n : Nat) (p : PE) : Prop := endPcOf cfg n = p.pc

/-- 70_reset_and_hazards.md R119: every PE is finished, no operation is pending, no fault mark is recorded. (A refusal
is an outcome of the step that meets it and leaves no state.) -/
abbrev State.final (s : State) : Prop :=
  (∀ q ∈ s.pes, peFinished s.cfg q.1 q.2 ∧ q.2.mark = none) ∧ s.pending = []

end Sys2Proof.Machine
end

