-- ==== Sys2Proof/Certificates/Slice0/Obligations.lean ====
section
/-! DEFINITION. The statements for the provers. Each docstring names the rule of spec/ it formalises; a clause that
rests on a choice of the model names its log entry. -/

open Sys2Proof Sys2Proof.Machine

/-! ### Encoding -/

/-- 30_encoding.md R46: the word of `TLBI RVAAE1OS`, its field values, its match, mask and `t`.
The positions of the fields are general knowledge there (R45): log 7. -/
def Obligations.PlainWordMatchAndMask : Prop :=
  (∀ w : InstrWord, w &&& 0xFFFFFFE0#32 = 0xD5088560#32 ↔
      decodeWord w = .ok (.tlbiRvaae1os (w.extractLsb' 0 5).toNat))
  ∧ ∀ t, t < 32 →
      encode (.tlbiRvaae1os t) = 0xD5088560#32 ||| BitVec.ofNat 32 t
      ∧ sysFields (encode (.tlbiRvaae1os t)) =
          { fixed := 0b1101010100, l := 0, op0 := 0b01, op1 := 0b000, crn := 0b1000, crm := 0b0101, op2 := 0b011,
            rt := BitVec.ofNat 5 t }

/-- 30_encoding.md R47: the word of `TLBI RVAAE1OSNXS`; it differs from R46 in bit 12 only.
The positions are R45's: log 7. -/
def Obligations.NxsWordMatchAndMask : Prop :=
  (∀ w : InstrWord, w &&& 0xFFFFFFE0#32 = 0xD5089560#32 ↔
      decodeWord w = .ok (.tlbiRvaae1osnxs (w.extractLsb' 0 5).toNat))
  ∧ ∀ t, t < 32 →
      encode (.tlbiRvaae1osnxs t) = 0xD5089560#32 ||| BitVec.ofNat 32 t
      ∧ encode (.tlbiRvaae1osnxs t) = encode (.tlbiRvaae1os t) ^^^ (1#32 <<< 12)
      ∧ sysFields (encode (.tlbiRvaae1osnxs t)) =
          { fixed := 0b1101010100, l := 0, op0 := 0b01, op1 := 0b000, crn := 0b1001, crm := 0b0101, op2 := 0b011,
            rt := BitVec.ofNat 5 t }

/-- Headline (encoding): every well-formed instruction, with every register number, decodes from its own bytes, and
the bytes after them are left over. Word and byte order are log 7. -/
def Obligations.DecodeOfEncode : Prop :=
  ∀ (i : Instr) (rest : List Byte), i.wf = true → decodeBytes (encodeBytes i ++ rest) = .ok (i, rest)

/-- The other direction: a word that decodes is the word of the instruction it decodes to, which is well-formed.
The word is log 7. -/
def Obligations.EncodeOfDecode : Prop :=
  ∀ (w : InstrWord) (i : Instr), decodeWord w = .ok i → i.wf = true ∧ encode i = w

/-- 30_encoding.md R59: every other word is "not in this spec", and a PE that fetches it at its turn, whether nothing is
scheduled or `run n` is, is refused by that name. Word and byte order are log 7. -/
def Obligations.EveryOtherWordRefused : Prop :=
  ∀ w : InstrWord, w &&& 0xFFFFFFE0#32 ≠ 0xD5088560#32 → w &&& 0xFFFFFFE0#32 ≠ 0xD5089560#32 →
    decodeWord w = .error (.notInThisSpec w)
    ∧ ∀ s0 s : State, s0.givesTurn s → s.pe.mark = none → endPcOf s.cfg s.self ≠ s.pe.pc →
        pcAligned s.pe.pc = true → s.fetchBytes = some (bytesOfWord w) → step s0 = .refused (.notInThisSpec w)

/-- 95_test_vectors.md section 2: the words given there decode to the instructions they stand for.
They rest on log 7. -/
def Obligations.WordsOfTheSpecDecode : Prop :=
  decodeBytes [0x60, 0x85, 0x08, 0xD5] = .ok (.tlbiRvaae1os 0, [])
  ∧ decodeBytes [0x61, 0x85, 0x08, 0xD5] = .ok (.tlbiRvaae1os 1, [])
  ∧ decodeBytes [0x6A, 0x85, 0x08, 0xD5] = .ok (.tlbiRvaae1os 10, [])
  ∧ decodeBytes [0x7F, 0x85, 0x08, 0xD5] = .ok (.tlbiRvaae1os 31, [])
  ∧ decodeBytes [0x62, 0x95, 0x08, 0xD5] = .ok (.tlbiRvaae1osnxs 2, [])
  ∧ decodeBytes [0x7F, 0x95, 0x08, 0xD5] = .ok (.tlbiRvaae1osnxs 31, [])
  ∧ decodeWord 0xD5088540 = .error (.notInThisSpec 0xD5088540)
  ∧ decodeWord 0xD5288560 = .error (.notInThisSpec 0xD5288560)

/-! ### The step -/

/-- A step runs the decoded instruction: at its turn (`State.givesTurn`: nothing is scheduled and no agent moves of its own
accord, or `run n` is scheduled) the PE whose four bytes at an aligned pc (least significant byte lowest, 20_memory.md R31)
decode to `i` takes the step of `exec i`, unless it is finished, has recorded an exception, or must wait. `s` is the state
the turn finds: the one before the step, or, for `run n`, that state with the move taken off the schedule and PE `n` made
the executing one. Byte order and schedule are log 7 and log 9. -/
def Obligations.StepRunsDecodedInstruction : Prop :=
  ∀ (s0 s : State) (i : Instr) (b0 b1 b2 b3 : Byte),
    s0.givesTurn s → s.pe.mark = none → endPcOf s.cfg s.self ≠ s.pe.pc → pcAligned s.pe.pc = true →
    s.mem.read s.pe.pc.toNat = some b0 → s.mem.read (s.pe.pc.toNat + 1) = some b1 →
    s.mem.read (s.pe.pc.toNat + 2) = some b2 → s.mem.read (s.pe.pc.toNat + 3) = some b3 →
    decodeWord (b3 ++ b2 ++ b1 ++ b0) = .ok i → s.mustWait i = false → step s0 = exec i s

/-- What a PE does at its turn, by an empty schedule or by `run n`, when it executes nothing. A finished PE
(70_reset_and_hazards.md R119) idles: log 34. A PE with a recorded exception (60_exceptions.md R96, which only says that
the mark is never cleared) stops with a fault: log 12. A misaligned pc (20_memory.md R32, D3) is refused: log 5. A pc with no word
(R119) is refused: log 8. All four are the model's choices. -/
def Obligations.TurnsThatExecuteNothing : Prop :=
  ∀ s0 s : State, s0.givesTurn s →
    (∀ o, s.pe.mark = some o → step s0 = .fault (.exceptionRecorded o))
    ∧ (s.pe.mark = none →
        (endPcOf s.cfg s.self = s.pe.pc → step s0 = .next s)
        ∧ (endPcOf s.cfg s.self ≠ s.pe.pc →
            (¬ 4 ∣ s.pe.pc.toNat → step s0 = .refused (.misalignedPc s.pe.pc))
            ∧ (4 ∣ s.pe.pc.toNat → s.fetchBytes = none → step s0 = .refused (.noWordAtPc s.pe.pc))))

/-- 20_memory.md R38: an instruction of `CompletionObserver` does not execute, at any turn of its PE, while an operation
its PE issued is not complete. That the PE keeps its state meanwhile is log 33. -/
def Obligations.CompletionObserverWaits : Prop :=
  ∀ (s0 s : State) (i : Instr) (rest bytes : List Byte) (op : TlbiOp),
    s0.givesTurn s → s.pe.mark = none → endPcOf s.cfg s.self ≠ s.pe.pc → pcAligned s.pe.pc = true →
    s.fetchBytes = some bytes → decodeBytes bytes = .ok (i, rest) →
    i ∈ s.cfg.completionObserver → op ∈ s.pending → op.issuer = s.self → s.complete op = false → step s0 = .next s

/-- Placing a well-formed instruction's word with `withFetchWord` makes the very next step run it, from every state
whose pc is aligned and where nothing is to be waited for (log 36). The schedule is empty when it runs. -/
def Obligations.PlacedWordRunsNext : Prop :=
  ∀ (s : State) (i : Instr), i.wf = true → 4 ∣ s.pe.pc.toNat → s.cfg.completionObserver = [] →
    step (s.withFetchWord 32 (encode i).toNat) = exec i ((s.withFetchWord 32 (encode i).toNat).setSchedule [])

/-! ### The register operand -/

/-- 10_state.md R10, R11: `x[31]` reads zero whatever the state, the others the register.
The count and the zero register are general knowledge there: log 4. -/
def Obligations.RegisterThirtyOneReadsZero : Prop :=
  ∀ s : State, s.readX 31 = 0 ∧ ∀ t : Fin 31, s.readX t.val = s.pe.x[t]

/-- 30_encoding.md R48, R49: the six fields, in order, are the 64 bits of `Xt`. -/
def Obligations.XtFieldsPartitionTheRegister : Prop :=
  ∀ v : Word,
    (decodeXt v).res0 ++ (decodeXt v).tg ++ (decodeXt v).scale ++ (decodeXt v).num ++ (decodeXt v).ttl
      ++ (decodeXt v).baFld = v

/-- 30_encoding.md R50: the granule of each TG value, its shift and its size in bytes. -/
def Obligations.GranuleOfTg : Prop :=
  granuleOfTg 0b00 = none
  ∧ (∃ g, granuleOfTg 0b01 = some g ∧ g.shift = 12 ∧ g.size = 4096)
  ∧ (∃ g, granuleOfTg 0b10 = some g ∧ g.shift = 14 ∧ g.size = 16384)
  ∧ (∃ g, granuleOfTg 0b11 = some g ∧ g.shift = 16 ∧ g.size = 65536)

/-- 30_encoding.md R52: with FEAT_LPA2 and `TCR_EL1.DS == 1` the field is `BaseADDR[52:16]` for every granule, and
`BaseADDR[15:0]` is zero. The low bits are the spec's derivation in R52. -/
def Obligations.BaseAddrWithLpa2 : Prop :=
  ∀ (cfg : Config) (v : Word), cfg.featLpa2 = true → v.extractLsb' 46 2 ≠ 0b00#2 →
    ∃ r, rangeOf cfg true (decodeXt v) = some r
      ∧ r.base.extractLsb' 16 37 = v.extractLsb' 0 37 ∧ r.base.extractLsb' 0 16 = 0

/-- 30_encoding.md R53: BaseADDR of every granule as a number: the field times `2^bshift`, and, where the upper bits
copy a field whose top bit is 1, the bits above it all ones. Under `zero` they are zero, under `sign` copies; left open,
an operation with that bit set guarantees nothing. The three settings are log 19. -/
def Obligations.BaseAddrPlacement : Prop :=
  ∀ (cfg : Config) (ds : Bool) (v : Word) (g : Granule), granuleOfTg (v.extractLsb' 46 2) = some g →
    ∃ r, rangeOf cfg ds (decodeXt v) = some r
      ∧ r.base.toNat = (v.extractLsb' 0 37).toNat * 2 ^ baseShift (cfg.featLpa2 && ds) g
          + (if upperIsSign cfg.baseAddrUpper && (v.extractLsb' 0 37).msb
              then 2 ^ 64 - 2 ^ (baseShift (cfg.featLpa2 && ds) g + 37) else 0)
      ∧ baseShift (cfg.featLpa2 && ds) g = (if cfg.featLpa2 && ds then 16 else g.shift)
      ∧ upperIsSign .zero = false ∧ upperIsSign .sign = true
      ∧ (cfg.baseAddrUpper = .leftOpen → (v.extractLsb' 0 37).msb = true →
          ∀ agreed, guaranteedOf cfg ds agreed (decodeXt v) = false)

/-- 40_tlbi_rvaae1os.md R72: the extent in granules is `NUM + 1` steps, the step of each SCALE as the table gives it;
always an even number of granules, from 0x2000 to 2^37 bytes. The spec marks it as its own arithmetic. -/
def Obligations.RangeExtentInGranules : Prop :=
  ∀ (num : BitVec 5) (g : Granule),
    rangeLen num 0 g = (num.toNat + 1) * 2 * g.size
    ∧ rangeLen num 1 g = (num.toNat + 1) * 64 * g.size
    ∧ rangeLen num 2 g = (num.toNat + 1) * 2048 * g.size
    ∧ rangeLen num 3 g = (num.toNat + 1) * 65536 * g.size
    ∧ (∀ scale, 2 * g.size ≤ rangeLen num scale g ∧ rangeLen num scale g ≤ 2097152 * g.size
        ∧ 2 * g.size ∣ rangeLen num scale g ∧ 0x2000 ≤ rangeLen num scale g ∧ rangeLen num scale g ≤ 2 ^ 37)
    ∧ rangeLen 0 0 .g4K = 0x2000 ∧ rangeLen 31 3 .g64K = 2 ^ 37

/-- 40_tlbi_rvaae1os.md R73: the range arithmetic does not overflow with the upper bits zero, runs to the top of the
address space without wrapping where they are ones, and is computed exactly.
The bound that does not wrap is log 23. -/
def Obligations.RangeArithmeticLaws : Prop :=
  ∀ (cfg : Config) (ds : Bool) (v : Word) (r : AddrRange), rangeOf cfg ds (decodeXt v) = some r →
    r.len < 2 ^ 38 ∧ r.upper = r.base.toNat + r.len
    ∧ (cfg.baseAddrUpper = .zero → r.base.toNat < 2 ^ 53 ∧ r.upper < 2 ^ 54)
    ∧ (cfg.baseAddrUpper = .sign → (v.extractLsb' 0 37).msb = true →
        2 ^ 64 - 2 ^ 52 ≤ r.base.toNat ∧ ∀ e : TLBEntry, e.vaHi.toNat < 2 ^ 63 → overlaps e r = false)

/-- 40_tlbi_rvaae1os.md R76: the range is unpredictable exactly when `TTL == 0b10` and BaseADDR is not a multiple of the
level 2 block size of the granule. The block sizes are the spec's derivation (20_memory.md R36). -/
def Obligations.UnpredictableIffNotBlockAligned : Prop :=
  ∀ (cfg : Config) (ds : Bool) (v : Word) (g : Granule) (r : AddrRange) (ttl : BitVec 2),
    granuleOfTg (v.extractLsb' 46 2) = some g → rangeOf cfg ds (decodeXt v) = some r →
    (unpredictable ttl g r.base = true ↔
      ttl = 0b10#2 ∧ ¬ (match g with | .g4K => 2 ^ 21 | .g16K => 2 ^ 25 | .g64K => 2 ^ 29) ∣ r.base.toNat)

/-- 40_tlbi_rvaae1os.md R77: the operation guarantees nothing in exactly the cases (a) to (f).
The cases are the spec's decisions: log 3, log 19 to log 22, log 25. -/
def Obligations.GuaranteedExceptInSixCases : Prop :=
  ∀ (cfg : Config) (ds agreed : Bool) (v : Word),
    guaranteedOf cfg ds agreed (decodeXt v) = false ↔
      (∃ g r, granuleOfTg (v.extractLsb' 46 2) = some g ∧ rangeOf cfg ds (decodeXt v) = some r
        ∧ (v.extractLsb' 37 2 = 0b10#2
            ∧ (match g with
              | .g4K => r.base.extractLsb' 12 9 ≠ 0
              | .g16K => r.base.extractLsb' 14 11 ≠ 0
              | .g64K => r.base.extractLsb' 16 13 ≠ 0)))
      ∨ v.extractLsb' 46 2 = 0b00#2
      ∨ (cfg.featLpa2 = false ∧ v.extractLsb' 46 2 = 0b10#2 ∧ v.extractLsb' 37 2 = 0b01#2
          ∧ cfg.ttl01At16K = .noGuarantee)
      ∨ agreed = false
      ∨ (∃ g r, granuleOfTg (v.extractLsb' 46 2) = some g ∧ rangeOf cfg ds (decodeXt v) = some r
        ∧ effectiveTtl cfg (decodeXt v) = 0b01#2 ∧ cfg.ttl01Misaligned = .noGuarantee
        ∧ (match g with
          | .g4K => r.base.extractLsb' 12 18 ≠ 0
          | .g16K => r.base.extractLsb' 14 22 ≠ 0
          | .g64K => r.base.extractLsb' 16 26 ≠ 0))
      ∨ ((v.extractLsb' 0 37).msb = true ∧ cfg.baseAddrUpper = .leftOpen)

/-- 30_encoding.md R57: at the 16K granule without FEAT_LPA2 the TTL value `0b01` is replaced by `0b00` under
`treat_as_00`; under `no_guarantee` nothing is guaranteed; every other TTL value stands. The settings are log 20. -/
def Obligations.ReservedTtlAt16K : Prop :=
  ∀ (cfg : Config) (v : Word),
    (cfg.featLpa2 = false → v.extractLsb' 46 2 = 0b10#2 → v.extractLsb' 37 2 = 0b01#2 →
      (cfg.ttl01At16K = .treatAs00 → effectiveTtl cfg (decodeXt v) = 0b00#2)
      ∧ (cfg.ttl01At16K = .noGuarantee → ∀ ds agreed, guaranteedOf cfg ds agreed (decodeXt v) = false))
    ∧ (¬ (cfg.featLpa2 = false ∧ v.extractLsb' 46 2 = 0b10#2 ∧ v.extractLsb' 37 2 = 0b01#2) →
        effectiveTtl cfg (decodeXt v) = v.extractLsb' 37 2)

/-- 30_encoding.md R56, D13: bits [63:48] of the operand change nothing of what the operation does or whether it is
refused. That they are ignored is log 26. -/
def Obligations.Res0BitsIgnored : Prop :=
  ∀ (regime : Regime) (vmid : Option Vmid) (attr : TlbiAttr) (agreed : Bool) (s : State) (v v' : Word),
    v.extractLsb' 0 48 = v'.extractLsb' 0 48 →
      tlbiRvaa regime vmid attr agreed v s = tlbiRvaa regime vmid attr agreed v' s

/-! ### What the control bits decide -/

/-- 10_state.md R15, R18, R19, R21: `HCR_EL2` as read (the register where EL2 is implemented, every field 0 where not),
`EL2Enabled()`, `IsHCRXEL2Enabled()` and `VMID[]`. They are general knowledge there: log 15, log 17, log 18. -/
def Obligations.ControlPredicates : Prop :=
  ∀ s : State,
    (s.cfg.haveEl2 = true → s.hcr = s.pe.hcrEl2)
    ∧ (s.cfg.haveEl2 = false → s.hcr = { e2h := false, tge := false, ttlb := false, ttlbos := false })
    ∧ (s.el2Enabled = true ↔ s.cfg.haveEl2 = true
      ∧ (s.cfg.haveEl3 = true → s.pe.scrEl3.ns = true ∨ s.pe.scrEl3.eel2 = true))
    ∧ (s.hcrxEnabled = true ↔ s.cfg.featHcx = true
      ∧ (s.cfg.haveEl3 = true → s.pe.scrEl3.hxEn = true) ∧ s.el2Enabled = true)
    ∧ s.vmidArg = (if s.el2Enabled = true then some s.pe.vmid else none)

/-- 10_state.md R20: the Security state, from the parameter without EL3, from `NS` without FEAT_RME, from `{NSE, NS}`
with it; `0b10` has none. The mapping is general knowledge there: log 16. -/
def Obligations.SecurityStateOfBits : Prop :=
  ∀ s : State,
    (s.cfg.haveEl3 = false → s.secState = some s.cfg.secstateNoEl3)
    ∧ (s.cfg.haveEl3 = true → s.cfg.featRme = false →
        (s.pe.scrEl3.ns = false → s.secState = some .secure) ∧ (s.pe.scrEl3.ns = true → s.secState = some .nonSecure))
    ∧ (s.cfg.haveEl3 = true → s.cfg.featRme = true →
        (s.pe.scrEl3.nse = false → s.pe.scrEl3.ns = false → s.secState = some .secure)
        ∧ (s.pe.scrEl3.nse = false → s.pe.scrEl3.ns = true → s.secState = some .nonSecure)
        ∧ (s.pe.scrEl3.nse = true → s.pe.scrEl3.ns = true → s.secState = some .realm)
        ∧ (s.pe.scrEl3.nse = true → s.pe.scrEl3.ns = false → s.secState = none))

/-! ### The two instructions -/

/-- 40_tlbi_rvaae1os.md R60 at EL1: when present and not trapped, `TLBI RVAAE1OS` issues one EL1&0 operation with
`VMID[]`, attribute `AllAttr`, or `ExcludeXS` where `HCRX_EL2.FnXS` says so, and pc advances.
The pc, EL2 enabled, VMID[] and the reserved TG are log 5, log 15, log 17, log 3. -/
def Obligations.PlainCompletesAtEl1 : Prop :=
  ∀ (s : State) (t : Nat) (sec : SecurityState),
    s.cfg.featTlbirange = true → s.cfg.featTlbios = true → s.pe.pstate.el = .el1 →
    s.trapT1 = false → s.trapT2 = false → s.trapT3 = false →
    s.secState = some sec → s.operandAccepted (s.readX t) →
      ∃ op, exec (.tlbiRvaae1os t) s = .next (s.afterIssue op) ∧ op.IssuedBy s (s.readX t) true
        ∧ op.security = sec ∧ op.regime = .el10 ∧ op.vmid = s.vmidArg
        ∧ op.attr = (if s.cfg.featXs = true ∧ s.cfg.featHcx = true ∧ s.hcrxEnabled = true
            ∧ s.pe.hcrxEl2.fnXs = true then .excludeXs else .allAttr)

/-- 40_tlbi_rvaae1os.md R60, R63, R65 at EL2 and EL3: when present, `TLBI RVAAE1OS` issues one `AllAttr` operation, of
EL2&0 without VMID when `HCR_EL2.{E2H, TGE} == {1, 1}`, else of EL1&0 with `VMID[]`. (The branches are the spec's
reconstruction, R64, log 24.) -/
def Obligations.PlainCompletesAtEl2AndEl3 : Prop :=
  ∀ (s : State) (t : Nat) (sec : SecurityState),
    s.cfg.featTlbirange = true → s.cfg.featTlbios = true → (s.pe.pstate.el = .el2 ∨ s.pe.pstate.el = .el3) →
    s.secState = some sec → s.operandAccepted (s.readX t) →
      ∃ op, exec (.tlbiRvaae1os t) s = .next (s.afterIssue op) ∧ op.security = sec ∧ op.attr = .allAttr
        ∧ (s.hcr.e2h = true ∧ s.hcr.tge = true →
            op.regime = .el20 ∧ op.vmid = none
            ∧ op.IssuedBy s (s.readX t) (s.pe.pstate.el != .el3 || s.el2Enabled))
        ∧ (¬ (s.hcr.e2h = true ∧ s.hcr.tge = true) →
            op.regime = .el10 ∧ op.vmid = s.vmidArg ∧ op.IssuedBy s (s.readX t) true)

/-- 40_tlbi_rvaae1os.md R61 at EL1: when present with FEAT_XS and not trapped, `TLBI RVAAE1OSNXS` issues one EL1&0
operation with `VMID[]` and attribute `ExcludeXS`, and pc advances.
As for the plain variant, log 3, log 5, log 15, log 17. -/
def Obligations.NxsCompletesAtEl1 : Prop :=
  ∀ (s : State) (t : Nat) (sec : SecurityState),
    s.cfg.featTlbirange = true → s.cfg.featTlbios = true → s.cfg.featXs = true → s.pe.pstate.el = .el1 →
    s.trapT1 = false → s.trapT2 = false → s.trapT3n = false →
    s.secState = some sec → s.operandAccepted (s.readX t) →
      ∃ op, exec (.tlbiRvaae1osnxs t) s = .next (s.afterIssue op) ∧ op.IssuedBy s (s.readX t) true
        ∧ op.security = sec ∧ op.regime = .el10 ∧ op.vmid = s.vmidArg ∧ op.attr = .excludeXs

/-- 40_tlbi_rvaae1os.md R61, R63, R65 at EL2 and EL3 (EL3 the spec's reconstruction, R64, log 24). -/
def Obligations.NxsCompletesAtEl2AndEl3 : Prop :=
  ∀ (s : State) (t : Nat) (sec : SecurityState),
    s.cfg.featTlbirange = true → s.cfg.featTlbios = true → s.cfg.featXs = true →
    (s.pe.pstate.el = .el2 ∨ s.pe.pstate.el = .el3) →
    s.secState = some sec → s.operandAccepted (s.readX t) →
      ∃ op, exec (.tlbiRvaae1osnxs t) s = .next (s.afterIssue op) ∧ op.security = sec ∧ op.attr = .excludeXs
        ∧ (s.hcr.e2h = true ∧ s.hcr.tge = true →
            op.regime = .el20 ∧ op.vmid = none
            ∧ op.IssuedBy s (s.readX t) (s.pe.pstate.el != .el3 || s.el2Enabled))
        ∧ (¬ (s.hcr.e2h = true ∧ s.hcr.tge = true) →
            op.regime = .el10 ∧ op.vmid = s.vmidArg ∧ op.IssuedBy s (s.readX t) true)

/-- 60_exceptions.md R90: the causes of `Undefined`, in every state: features absent, FEAT_XS absent for the nXS
variant (whatever the level and the traps), EL0. That presence is tested first is log 27. -/
def Obligations.UndefinedCauses : Prop :=
  ∀ (s : State) (t : Nat),
    (s.cfg.featTlbirange = false ∨ s.cfg.featTlbios = false ∨ s.pe.pstate.el = .el0 →
      exec (.tlbiRvaae1os t) s = .next (s.takeException (.undefined s.pe.pc)))
    ∧ (s.cfg.featTlbirange = false ∨ s.cfg.featTlbios = false ∨ s.cfg.featXs = false ∨ s.pe.pstate.el = .el0 →
      exec (.tlbiRvaae1osnxs t) s = .next (s.takeException (.undefined s.pe.pc)))

/-- 30_encoding.md R55: without FEAT_XS the nXS variant is `Undefined`, whatever the Exception level, the trap controls
and the operand. -/
def Obligations.NxsUndefinedWithoutFeatXs : Prop :=
  ∀ (s : State) (t : Nat), s.cfg.featXs = false →
    exec (.tlbiRvaae1osnxs t) s = .next (s.takeException (.undefined s.pe.pc))

/-- 60_exceptions.md R92: at EL1, when present, `TLBI RVAAE1OS` raises `SystemAccessTrap(EL2, 0x18)` if T1, T2 or T3
holds, and T1, T2, T3 are the conditions of the rule; if none holds it is not trapped. The pc and the word the trap
carries are 60_exceptions.md R91 and 30_encoding.md R46, whose layout is general knowledge: log 7. -/
def Obligations.PlainTrapsAtEl1 : Prop :=
  ∀ (s : State) (t : Nat), t < 32 →
    s.cfg.featTlbirange = true → s.cfg.featTlbios = true → s.pe.pstate.el = .el1 →
    ((s.el2Enabled = true ∧ s.hcr.ttlb = true)
      ∨ (s.el2Enabled = true ∧ s.hcr.ttlbos = true)
      ∨ (s.el2Enabled = true ∧ s.cfg.featFgt = true ∧ (s.cfg.haveEl3 = false ∨ s.pe.scrEl3.fgtEn = true)
          ∧ s.pe.hfgitrEl2.tlbirvaae1os = true) →
        exec (.tlbiRvaae1os t) s = .next (s.takeException
          (.systemAccessTrap .el2 0x18 s.pe.pc (0xD5088560#32 ||| BitVec.ofNat 32 t))))
    ∧ (¬ ((s.el2Enabled = true ∧ s.hcr.ttlb = true)
      ∨ (s.el2Enabled = true ∧ s.hcr.ttlbos = true)
      ∨ (s.el2Enabled = true ∧ s.cfg.featFgt = true ∧ (s.cfg.haveEl3 = false ∨ s.pe.scrEl3.fgtEn = true)
          ∧ s.pe.hfgitrEl2.tlbirvaae1os = true)) →
        s.trapT1 = false ∧ s.trapT2 = false ∧ s.trapT3 = false
        ∧ exec (.tlbiRvaae1os t) s = tlbiAtEl1 s.plainAttrAtEl1 t s)

/-- 60_exceptions.md R93: the same for `TLBI RVAAE1OSNXS` with T3n. The pc and the word the trap
carries are 60_exceptions.md R91 and 30_encoding.md R47, whose layout is general knowledge: log 7. -/
def Obligations.NxsTrapsAtEl1 : Prop :=
  ∀ (s : State) (t : Nat), t < 32 →
    s.cfg.featTlbirange = true → s.cfg.featTlbios = true → s.cfg.featXs = true → s.pe.pstate.el = .el1 →
    ((s.el2Enabled = true ∧ s.hcr.ttlb = true)
      ∨ (s.el2Enabled = true ∧ s.hcr.ttlbos = true)
      ∨ (s.el2Enabled = true ∧ s.cfg.featFgt = true ∧ (s.cfg.haveEl3 = false ∨ s.pe.scrEl3.fgtEn = true)
          ∧ s.cfg.featHcx = true ∧ (s.hcrxEnabled = false ∨ s.pe.hcrxEl2.fgtNxs = false)
          ∧ s.pe.hfgitrEl2.tlbirvaae1os = true) →
        exec (.tlbiRvaae1osnxs t) s = .next (s.takeException
          (.systemAccessTrap .el2 0x18 s.pe.pc (0xD5089560#32 ||| BitVec.ofNat 32 t))))
    ∧ (¬ ((s.el2Enabled = true ∧ s.hcr.ttlb = true)
      ∨ (s.el2Enabled = true ∧ s.hcr.ttlbos = true)
      ∨ (s.el2Enabled = true ∧ s.cfg.featFgt = true ∧ (s.cfg.haveEl3 = false ∨ s.pe.scrEl3.fgtEn = true)
          ∧ s.cfg.featHcx = true ∧ (s.hcrxEnabled = false ∨ s.pe.hcrxEl2.fgtNxs = false)
          ∧ s.pe.hfgitrEl2.tlbirvaae1os = true)) →
        s.trapT1 = false ∧ s.trapT2 = false ∧ s.trapT3n = false
        ∧ exec (.tlbiRvaae1osnxs t) s = tlbiAtEl1 .excludeXs t s)

/-- Where the two instructions stop on an issuing path: 10_state.md R20 (the reserved Security state) and
30_encoding.md R56 with `TG_RESERVED = refuse` (log 3, log 16). At EL1 the instruction must not be trapped. -/
def Obligations.ReservedOperandsRefused : Prop :=
  ∀ (s : State) (t : Nat), s.cfg.featTlbirange = true → s.cfg.featTlbios = true →
    ((s.pe.pstate.el = .el1 ∧ s.trapT1 = false ∧ s.trapT2 = false ∧ s.trapT3 = false
        ∨ s.pe.pstate.el = .el2 ∨ s.pe.pstate.el = .el3) →
      (s.secState = none → exec (.tlbiRvaae1os t) s = .refused .reservedSecurityState)
      ∧ (s.secState ≠ none → (s.readX t).extractLsb' 46 2 = 0b00#2 → s.cfg.tgReserved = .refuse →
          exec (.tlbiRvaae1os t) s = .refused .reservedGranule))
    ∧ (s.cfg.featXs = true →
      (s.pe.pstate.el = .el1 ∧ s.trapT1 = false ∧ s.trapT2 = false ∧ s.trapT3n = false
        ∨ s.pe.pstate.el = .el2 ∨ s.pe.pstate.el = .el3) →
      (s.secState = none → exec (.tlbiRvaae1osnxs t) s = .refused .reservedSecurityState)
      ∧ (s.secState ≠ none → (s.readX t).extractLsb' 46 2 = 0b00#2 → s.cfg.tgReserved = .refuse →
          exec (.tlbiRvaae1osnxs t) s = .refused .reservedGranule))

/-- 40_tlbi_rvaae1os.md R65: at EL3 with EL2 implemented but disabled in the selected Security state and
`HCR_EL2.{E2H, TGE} == {1, 1}`, both instructions issue an EL2&0 operation that guarantees and requires nothing.
The spec's decision D16: log 24, log 25. -/
def Obligations.El3WithEl2DisabledGuaranteesNothing : Prop :=
  ∀ (s : State) (t : Nat) (sec : SecurityState),
    s.cfg.featTlbirange = true → s.cfg.featTlbios = true → s.cfg.featXs = true → s.pe.pstate.el = .el3 →
    s.cfg.haveEl2 = true → s.pe.hcrEl2.e2h = true → s.pe.hcrEl2.tge = true → s.el2Enabled = false →
    s.secState = some sec → s.operandAccepted (s.readX t) →
      (∃ op, exec (.tlbiRvaae1os t) s = .next (s.afterIssue op) ∧ op.regime = .el20 ∧ op.vmid = none
        ∧ op.attr = .allAttr ∧ op.guaranteed = false ∧ op.inScope = [] ∧ op.todo = [])
      ∧ ∃ op, exec (.tlbiRvaae1osnxs t) s = .next (s.afterIssue op) ∧ op.regime = .el20 ∧ op.vmid = none
        ∧ op.attr = .excludeXs ∧ op.guaranteed = false ∧ op.inScope = [] ∧ op.todo = []

/-- 20_memory.md R43 ("Both variants perform the same invalidation"): where both instructions issue, the operations
are equal but for the attribute. -/
def Obligations.BothVariantsSameInvalidation : Prop :=
  ∀ (s : State) (t : Nat) (op op' : TlbiOp),
    exec (.tlbiRvaae1os t) s = .next (s.afterIssue op) → exec (.tlbiRvaae1osnxs t) s = .next (s.afterIssue op') →
      op' = { op with attr := .excludeXs }

/-- 60_exceptions.md R95, R100: what each Exception level can give: from EL0 only `Undefined`; an operation is issued
only above EL0; at EL2 and EL3, when present, no exception is taken.
EL3 and the EL2 branch of the plain variant are reconstructed: log 24. -/
def Obligations.OutcomesByExceptionLevel : Prop :=
  ∀ (i : Instr) (s u : State), exec i s = .next u →
    (s.pe.pstate.el = .el0 → u = s.takeException (.undefined s.pe.pc))
    ∧ ((∀ op, u ≠ s.afterIssue op) →
        u = s.takeException (.undefined s.pe.pc)
        ∨ (s.pe.pstate.el = .el1 ∧ s.el2Enabled = true
            ∧ u = s.takeException (.systemAccessTrap .el2 0x18 s.pe.pc (encode i))))
    ∧ (s.cfg.featTlbirange = true → s.cfg.featTlbios = true → s.cfg.featXs = true →
        (s.pe.pstate.el = .el2 ∨ s.pe.pstate.el = .el3) → ∃ op, u = s.afterIssue op)

/-- The frame of both instructions: when one answers a next state, no byte of memory, no TLB, no access, no other PE and no
configuration changes. Either one operation was added to those pending and nothing of the PE but pc changed; or none was,
and, unless `TrapEntry` is left open (log 12), no general register, System register field, VMID or vector base
changed. -/
def Obligations.InstructionFrame : Prop :=
  ∀ (i : Instr) (s u : State), exec i s = .next u →
    (∀ a, u.mem.read a = s.mem.read a) ∧ u.tlb = s.tlb ∧ u.accesses = s.accesses ∧ u.others = s.others
    ∧ u.self = s.self ∧ u.cfg = s.cfg ∧ u.schedule = s.schedule
    ∧ ((∃ op, u.pending = s.pending ++ [op] ∧ u.pe = { s.pe with pc := s.pe.pc + 4 })
      ∨ (u.pending = s.pending ∧ (s.cfg.trapEntry ≠ .leftOpen → s.pe.SameRegisters u.pe)))

/-! ### Taking an exception -/

/-- 60_exceptions.md R96, the spec's choice of TrapEntry: the state gets a fault mark naming the outcome, and nothing else
changes (pc is not advanced, no operation is issued); a state with a mark is not final. The setting is log 12. -/
def Obligations.FaultMarkEntry : Prop :=
  ∀ (s : State) (o : ExcOutcome), s.cfg.trapEntry = .faultMark →
    s.takeException o = { s with pe := { s.pe with mark := some o } } ∧ ¬ (s.takeException o).final

/-- 60_exceptions.md R96: the mark is never cleared: a PE with a fault mark never changes again, in any step of any
agent. That the marked PE stops and the others go on is log 12. -/
def Obligations.FaultMarkNeverCleared : Prop :=
  ∀ (s u : State) (n : Nat) (p : PE) (o : ExcOutcome), s.pesOk → step s = .next u →
    s.peOf n = some p → p.mark = some o → u.peOf n = some p

/-- The architectural setting of TrapEntry, the entry 60_exceptions.md R90, R91, R96 and G7 describe from general knowledge
(log 12, log 13, log 14), for both outcomes at every Exception level: return address, process state and syndrome saved at
the target level, interrupts masked, pc at an offset from that level's vector base; the exception registers of the other
levels, the fault mark and every register unchanged. The targets: EL2 for the trap; for `Undefined` EL1 from EL0, EL2 from
EL0 when EL2 is enabled and `HCR_EL2.TGE` is 1, else the current level. The offset is a free value. -/
def Obligations.ArchitecturalEntry : Prop :=
  ∀ (s : State) (i : Instr) (o : ExcOutcome), s.cfg.trapEntry = .architectural →
    (o = .undefined s.pe.pc ∨ o = .systemAccessTrap .el2 0x18 s.pe.pc (encode i)) →
      ∃ l : EL, l ≠ .el0
        ∧ (o = .systemAccessTrap .el2 0x18 s.pe.pc (encode i) → l = .el2)
        ∧ (o = .undefined s.pe.pc →
            (s.pe.pstate.el = .el0 → s.el2Enabled = true → s.hcr.tge = true → l = .el2)
            ∧ (s.pe.pstate.el = .el0 → s.el2Enabled = false ∨ s.hcr.tge = false → l = .el1)
            ∧ (s.pe.pstate.el ≠ .el0 → l = s.pe.pstate.el))
        ∧ ((s.takeException o).pe.excRegs l).elr = s.pe.pc
        ∧ ((s.takeException o).pe.excRegs l).spsr = s.pe.pstate
        ∧ (o = .undefined s.pe.pc → ((s.takeException o).pe.excRegs l).esr = { ec := 0x00, iss := none })
        ∧ (o = .systemAccessTrap .el2 0x18 s.pe.pc (encode i) →
            ((s.takeException o).pe.excRegs l).esr = { ec := 0x18, iss := some (issOfWord (encode i)) })
        ∧ (s.takeException o).pe.pstate = { el := l, intMasked := true }
        ∧ (s.takeException o).pe.pc = (s.pe.excRegs l).vbar + vectorOffset s.pe.pstate.el l
        ∧ (∀ l', l' ≠ .el0 → l' ≠ l → (s.takeException o).pe.excRegs l' = s.pe.excRegs l')
        ∧ s.pe.SameRegisters (s.takeException o).pe ∧ (s.takeException o).pe.mark = s.pe.mark

/-- 93_implementation_defined.md G7: the syndrome of a trapped `TLBI RVAAE1OS, X<t>` or `TLBI RVAAE1OSNXS, X<t>` records
Op0 = 1, Op2 = 3, Op1 = 0, CRn = 8 or 9, Rt = t, CRm = 5, Direction = 0. General knowledge there: log 13. -/
def Obligations.TrapSyndromeFields : Prop :=
  ∀ t, t < 32 →
    issOfWord (encode (.tlbiRvaae1os t)) =
      0b01#2 ++ 0b011#3 ++ 0b000#3 ++ 0b1000#4 ++ BitVec.ofNat 5 t ++ 0b0101#4 ++ 0b0#1
    ∧ issOfWord (encode (.tlbiRvaae1osnxs t)) =
      0b01#2 ++ 0b011#3 ++ 0b000#3 ++ 0b1001#4 ++ BitVec.ofNat 5 t ++ 0b0101#4 ++ 0b0#1

/-! ### The required set -/

/-- 40_tlbi_rvaae1os.md R74: the level conjunct of a 64-bit entry for each TTL value. -/
def Obligations.LevelMatchOf64BitEntries : Prop :=
  ∀ (cfg : Config) (e : TLBEntry), e.width = .d64 →
    levelMatch cfg 0b00 e = true
    ∧ (levelMatch cfg 0b01 e = true ↔ (e.leaf = false ∧ e.level < 1) ∨ (e.leaf = true ∧ e.level = 1))
    ∧ (levelMatch cfg 0b10 e = true ↔ (e.leaf = false ∧ e.level < 2) ∨ (e.leaf = true ∧ e.level = 2))
    ∧ (levelMatch cfg 0b11 e = true ↔ (e.leaf = false ∧ e.level < 3) ∨ (e.leaf = true ∧ e.level = 3))

/-- 40_tlbi_rvaae1os.md R75: a 128-bit entry is in scope only with FEAT_D128 and `TTL == 0b00`, at any level; and an
unpredictable range never meets one. -/
def Obligations.LevelMatchOf128BitEntries : Prop :=
  ∀ (cfg : Config) (e : TLBEntry) (ttl : BitVec 2), e.width = .d128 →
    (levelMatch cfg ttl e = true ↔ cfg.featD128 = true ∧ ttl = 0b00#2)
    ∧ ∀ g base, unpredictable ttl g base = true → levelMatch cfg ttl e = false

/-- 40_tlbi_rvaae1os.md R78, R79: an entry is in the required set of an agent exactly when the operation guarantees, the
agent is in the issuer's domain, and every conjunct of the rules holds; and the domain (00_scope.md R5, 60_exceptions.md
R101, log 42): the issuer itself, and every agent of AGENTS that OSH gives the issuer. The exclusive bound, the overlap
and the VMID rule are the spec's decisions: log 17, log 23, log 28, log 29. -/
def Obligations.RequiredSetMembership : Prop :=
  ∀ (s : State) (op : TlbiOp) (a : Agent) (e : TLBEntry),
    ((a, e) ∈ requiredSet s op ↔
      (a, e) ∈ s.tlb ∧ inOsh s.cfg op.issuer a = true ∧ op.guaranteed = true ∧ e.stage1 = true
      ∧ levelMatch s.cfg op.ttl e = true ∧ granuleOfTg op.tg = some e.granule
      ∧ (∃ r, op.range = some r ∧ e.vaLo.toNat < r.base.toNat + r.len ∧ r.base.toNat ≤ e.vaHi.toNat)
      ∧ e.security = op.security
      ∧ ((op.regime = .el10 ∧ e.regime = .el10 ∧ (op.vmid = none ∨ e.vmid = op.vmid))
          ∨ (op.regime = .el20 ∧ e.regime = .el20))
      ∧ remoteRequired s op a e = true)
    ∧ (inOsh s.cfg op.issuer a = true ↔
        a = .pe op.issuer ∨ (a ∈ s.cfg.agents ∧ (op.issuer, a) ∈ s.cfg.osh))

/-- 40_tlbi_rvaae1os.md R83: `Overlaps` as the rule gives it; and an entry overlaps the range exactly when some VA of its
interval is in the (half-open) range, be it only a part of the entry.
The overlap is the spec's decision D28, the exclusive bound D27: log 28, log 23. -/
def Obligations.OverlapIsSharedAddress : Prop :=
  ∀ (e : TLBEntry) (r : AddrRange), e.vaLo.toNat ≤ e.vaHi.toNat → 0 < r.len →
    (overlaps e r = true ↔ e.vaLo.toNat < r.base.toNat + r.len ∧ r.base.toNat ≤ e.vaHi.toNat)
    ∧ (overlaps e r = true ↔
      ∃ va : Nat, e.vaLo.toNat ≤ va ∧ va ≤ e.vaHi.toNat ∧ r.base.toNat ≤ va ∧ va < r.base.toNat + r.len)

/-- 40_tlbi_rvaae1os.md R79: the ASID, the global bit and the payload of an entry play no part. -/
def Obligations.AnyAsidGlobalOrNot : Prop :=
  ∀ (s : State) (op : TlbiOp) (a : Agent) (e : TLBEntry) (asid payload : Nat) (isGlobal : Bool),
    required s op a { e with asid := asid, isGlobal := isGlobal, payload := payload } = required s op a e

/-- 60_exceptions.md R103: a PE's entries: the issuer's own and those of an operation that is not Secure EL1&0 are never
exempt; a remote PE's Secure EL1&0 entries are required exactly when the two `SCR_EL3.EEL2` agree; without EL3 all PEs
count as equal. The clause without EL3 is the spec's decision D26: log 29. -/
def Obligations.RemotePeNeedsEqualEel2 : Prop :=
  ∀ (s : State) (op : TlbiOp) (e : TLBEntry) (n : Nat) (p q : PE),
    s.peOf n = some p → s.peOf op.issuer = some q →
      (n = op.issuer → remoteRequired s op (.pe n) e = true)
      ∧ (op.security ≠ .secure ∨ op.regime ≠ .el10 → remoteRequired s op (.pe n) e = true)
      ∧ (s.cfg.haveEl3 = false → remoteRequired s op (.pe n) e = true)
      ∧ (n ≠ op.issuer → op.security = .secure → op.regime = .el10 → s.cfg.haveEl3 = true →
          (remoteRequired s op (.pe n) e = true ↔ p.scrEl3.eel2 = q.scrEl3.eel2))

/-- 60_exceptions.md R104: a System MMU's entry is required exactly when the operation is Secure EL1&0, the issuer has EL3
with `SCR_EL3.EEL2 == 0`, and the entry's VMID is 0. The spec's reading, D26: log 29. -/
def Obligations.SystemMmuOnlySecureVmidZero : Prop :=
  ∀ (s : State) (op : TlbiOp) (e : TLBEntry) (n : Nat) (q : PE), s.peOf op.issuer = some q →
    (remoteRequired s op (.smmu n) e = true ↔
      op.security = .secure ∧ op.regime = .el10 ∧ s.cfg.haveEl3 = true ∧ q.scrEl3.eel2 = false ∧ e.vmid = some 0)

/-! ### Removal and completion -/

/-- 20_memory.md R42: an `AllAttr` operation is complete exactly when nothing is left to remove and every access, of any
agent of the issuer's domain, that used an in-scope entry is complete. Clause (1) as an empty todo is log 31. -/
def Obligations.CompletionOfAllAttr : Prop :=
  ∀ (s : State) (op : TlbiOp), op.attr = .allAttr →
    (s.complete op = true ↔
      op.todo = [] ∧ ∀ r ∈ s.accesses, inOsh s.cfg op.issuer r.agent = true →
        (∃ b e, (b, e) ∈ op.inScope ∧ e ∈ r.used) → r.complete = true)

/-- 20_memory.md R43: an `ExcludeXS` operation waits only for the accesses whose XS attribute is 0; what completes an
`AllAttr` operation completes its `ExcludeXS` twin. Clause (1) as an empty todo is log 31. -/
def Obligations.CompletionOfExcludeXs : Prop :=
  ∀ (s : State) (op : TlbiOp),
    (op.attr = .excludeXs →
      (s.complete op = true ↔
        op.todo = [] ∧ ∀ r ∈ s.accesses, inOsh s.cfg op.issuer r.agent = true →
          (∃ b e, (b, e) ∈ op.inScope ∧ e ∈ r.used) → r.xs = false → r.complete = true))
    ∧ (s.complete { op with attr := .allAttr } = true → s.complete { op with attr := .excludeXs } = true)

/-- 40_tlbi_rvaae1os.md R81: the removal step takes exactly that entry out of `TLB(a)` and out of every `todo`; the PEs,
memory, the accesses and the recorded required sets stay. The moves are log 9, log 30. -/
def Obligations.RemovalStep : Prop :=
  ∀ (s : State) (k : Nat) (p : Cached) (op : TlbiOp) (ms : List Move),
    s.schedule = .remove k p.1 p.2 :: ms → s.pending[k]? = some op → p ∈ op.todo →
      ∃ u, step s = .next u ∧ u.schedule = ms ∧ (∀ q, q ∈ u.tlb ↔ q ∈ s.tlb ∧ q ≠ p)
        ∧ u.pe = s.pe ∧ u.others = s.others ∧ u.self = s.self ∧ u.mem = s.mem ∧ u.accesses = s.accesses
        ∧ u.pending.length = s.pending.length
        ∧ ∀ (j : Nat) (o : TlbiOp), s.pending[j]? = some o →
            ∃ o', u.pending[j]? = some o' ∧ o'.inScope = o.inScope ∧ o'.attr = o.attr ∧ o'.issuer = o.issuer
              ∧ ∀ q, q ∈ o'.todo ↔ q ∈ o.todo ∧ q ≠ p

/-- 20_memory.md R44: any agent may drop any entry at any step, required or not; the entry leaves every `todo` with it.
The spec's decision D6: log 30. -/
def Obligations.AnyEntryMayBeDropped : Prop :=
  ∀ (s : State) (p : Cached) (ms : List Move), s.schedule = .discard p.1 p.2 :: ms →
    ∃ u, step s = .next u ∧ (∀ q, q ∈ u.tlb ↔ q ∈ s.tlb ∧ q ≠ p)
      ∧ (∀ o ∈ u.pending, p ∉ o.todo) ∧ u.pe = s.pe ∧ u.mem = s.mem ∧ u.pending.length = s.pending.length

/-- 40_tlbi_rvaae1os.md R81, 70_reset_and_hazards.md R119: the removal agents empty every `todo`. A schedule of one
operation's removals runs to a state in which it has nothing left to remove and none of those entries is in a TLB; with
nothing scheduled a run of the agents' own moves empties every `todo` and leaves the PEs and memory alone; and every
infinite run is weakly fair: no removal stays enabled for ever, and time and again every `todo` is empty. The moves are
log 9, log 30. -/
def Obligations.RemovalAgentEmptiesTodo : Prop :=
  (∀ (s : State) (k : Nat) (op : TlbiOp) (ms : List Move),
    s.pending[k]? = some op → s.schedule = removalMoves k op.todo ++ ms →
      ∃ u, Host.Core.run Sys2Proof.core op.todo.length s = .next u ∧ u.schedule = ms
        ∧ (∃ o, u.pending[k]? = some o ∧ o.todo = [] ∧ o.inScope = op.inScope)
        ∧ ∀ p ∈ op.todo, p ∉ u.tlb)
  ∧ (∀ s : State, s.schedule = [] →
      ∃ k u, Host.Core.run Sys2Proof.core k s = .next u ∧ (∀ op ∈ u.pending, op.todo = []) ∧ u.schedule = []
        ∧ u.pe = s.pe ∧ u.others = s.others ∧ u.mem = s.mem ∧ u.pending.length = s.pending.length)
  ∧ ∀ r : Nat → State, IsRun r →
      WeaklyFair r ∧ ∀ n, ∃ k, n ≤ k ∧ ∀ op ∈ (r k).pending, op.todo = []

/-- 10_state.md R26, 40_tlbi_rvaae1os.md R82: in a step every pending operation stays at its place with nothing changed but
entries gone from its `todo`, or one operation, complete, is retired, by a scheduled move or of its agent's own accord, and
the others stay as they are. A scheduled retirement of a complete operation takes it out; and with nothing scheduled and
nothing left to remove a complete operation is retired. Leaving in a move of its own is log 31. -/
def Obligations.OperationsLeaveOnlyComplete : Prop :=
  (∀ s u : State, step s = .next u →
    (∀ (j : Nat) (op : TlbiOp), s.pending[j]? = some op →
      ∃ l, u.pending[j]? = some { op with todo := l } ∧ ∀ p ∈ l, p ∈ op.todo)
    ∨ ∃ k op, s.pending[k]? = some op ∧ s.complete op = true ∧ u.pending = s.pending.eraseIdx k
        ∧ (s.schedule.head? = some (.retire k) ∨ (s.schedule = [] ∧ s.ownMove = some (.retire k))))
  ∧ (∀ (s : State) (k : Nat) (op : TlbiOp) (ms : List Move),
      s.schedule = .retire k :: ms → s.pending[k]? = some op → s.complete op = true →
        step s = .next ((s.setSchedule ms).setPending (s.pending.eraseIdx k)))
  ∧ ∀ s : State, s.schedule = [] → (∀ op ∈ s.pending, op.todo = []) → (∃ op ∈ s.pending, s.complete op = true) →
      ∃ k op, s.pending[k]? = some op ∧ s.complete op = true
        ∧ step s = .next (s.setPending (s.pending.eraseIdx k))

/-- 10_state.md R23: an entry is in a TLB after a step only if it was there before or the step was its `TLBFill`.
TLBFill as a move is log 32. -/
def Obligations.EntriesAddedOnlyByFill : Prop :=
  ∀ (s u : State) (p : Cached), step s = .next u → p ∈ u.tlb → p ∉ s.tlb → s.schedule.head? = some (.fill p.1 p.2)

/-- Whole machine: no step of any agent changes the configuration, memory, or, unless `TrapEntry` is left open (log 12), any
general register, System register field, VMID or vector base of any PE (40_tlbi_rvaae1os.md R60, R61;
70_reset_and_hazards.md R119). That no host moves is log 37. -/
def Obligations.NoStepWritesRegistersOrMemory : Prop :=
  ∀ s u : State, s.pesOk → step s = .next u →
    u.cfg = s.cfg ∧ (∀ a, u.mem.read a = s.mem.read a)
    ∧ ∀ n p, s.peOf n = some p →
        ∃ q, u.peOf n = some q ∧ (s.cfg.trapEntry ≠ .leftOpen → p.SameRegisters q)

/-- Headline (invariant): a step that is not the `TLBFill` of `p` keeps `p` tracked by every operation that required it:
still to be removed, or out of the TLB (20_memory.md R42 clause (1)). The moves are log 9, log 30. -/
def Obligations.StepKeepsRemovalTracked : Prop :=
  ∀ (s u : State) (p : Cached), s.removalTracked p → s.nextMoveIsNotFill p → step s = .next u → u.removalTracked p

/-- Headline: along every run whose schedule does not fill `p` again, from any state that tracks `p`, a complete operation
that required `p` has it out of the TLB (20_memory.md R41, R42, R44: required entries are gone after completion).
Completion is log 31, the moves log 9. -/
def Obligations.RequiredEntriesGoneAtCompletion : Prop :=
  ∀ (k : Nat) (s u : State) (p : Cached),
    s.removalTracked p → Move.fill p.1 p.2 ∉ s.schedule → Host.Core.run Sys2Proof.core k s = .next u →
      ∀ op ∈ u.pending, u.complete op = true → p ∈ op.inScope → p ∉ u.tlb

/-! ### Invariant, reset, final states -/

/-- Headline (invariant): every step keeps the invariant: memory canonical, PEs with distinct numbers, legal levels and
aligned addresses, TLBs sets of possible entries, pending operations sound. A `TrapEntry` left open must make sound PEs
of sound PEs for that (log 12); what does not speak of the PEs every step keeps whatever it makes. That the levels are an
invariant is log 41, the representation log 38. -/
def Obligations.StepKeepsInvariant : Prop :=
  (∀ s u : State, s.Inv → (s.cfg.trapEntry = .leftOpen → trapEntrySound) → step s = .next u → u.Inv)
  ∧ ∀ s u : State, s.storesOk → step s = .next u → u.storesOk

/-- The state after reset meets the invariant (its register, level and configuration values are the model's own: log 2,
log 4, log 6, log 40); no operation is pending and no access is in flight (10_state.md R28). -/
def Obligations.ResetMeetsInvariant : Prop :=
  Sys2Proof.Machine.State.reset.Inv ∧ Sys2Proof.Machine.State.reset.pending = []
    ∧ Sys2Proof.Machine.State.reset.accesses = []

/-- 70_reset_and_hazards.md R119: in a final state with nothing scheduled nothing happens any more (that a finished PE idles
is log 34), and a state with a pending operation or an exception recorded on any PE is not final. -/
def Obligations.FinalStatesAreAtRest : Prop :=
  (∀ s : State, s.final → s.schedule = [] → step s = .next s)
  ∧ (∀ s : State, s.pending ≠ [] → ¬ s.final)
  ∧ ∀ (s : State) (o : ExcOutcome), (∃ q ∈ s.pes, q.2.mark = some o) → ¬ s.final
end

