-- ==== Sys2Proof/Laws/Decode.lean ====
section
/-! SUPPORT. Everything the decoder can do, and how a word is put together from its fields and from its bytes. -/

namespace Sys2Proof

/-- The fields of a word, joined, are the word. -/
theorem join_sysFields (w : InstrWord) :
    (sysFields w).fixed ++ (sysFields w).l ++ (sysFields w).op0 ++ (sysFields w).op1 ++ (sysFields w).crn
      ++ (sysFields w).crm ++ (sysFields w).op2 ++ (sysFields w).rt = w := by
  simp only [sysFields]
  repeat (rw [BitVec.extractLsb'_append_extractLsb'_eq_extractLsb' (by rfl)])
  exact BitVec.extractLsb'_eq_self

/-- The bytes of a word, joined, are the word. -/
theorem wordOfBytes_bytes (w : InstrWord) :
    wordOfBytes (w.extractLsb' 0 8) (w.extractLsb' 8 8) (w.extractLsb' 16 8) (w.extractLsb' 24 8) = w := by
  unfold wordOfBytes
  repeat (rw [BitVec.extractLsb'_append_extractLsb'_eq_extractLsb' (by rfl)])
  exact BitVec.extractLsb'_eq_self

/-- Decoding the bytes of a word is decoding the word. -/
theorem decodeBytes_bytesOfWord (w : InstrWord) (rest : List Byte) :
    decodeBytes (bytesOfWord w ++ rest) = (decodeWord w).map (fun i => (i, rest)) := by
  simp only [bytesOfWord, List.cons_append, List.nil_append, decodeBytes, wordOfBytes_bytes]
  cases decodeWord w <;> rfl

/-- Everything decoding a word can do. -/
theorem decodeWord_cases (w : InstrWord) :
    ((sysFields w).isRvaae1osSpace = true ∧ (sysFields w).crn = 0b1000#4
        ∧ decodeWord w = .ok (.tlbiRvaae1os (sysFields w).rt.toNat))
    ∨ ((sysFields w).isRvaae1osSpace = true ∧ (sysFields w).crn = 0b1001#4
        ∧ decodeWord w = .ok (.tlbiRvaae1osnxs (sysFields w).rt.toNat))
    ∨ decodeWord w = .error (.notInThisSpec w) := by
  by_cases h : (sysFields w).isRvaae1osSpace = true
  · by_cases h8 : (sysFields w).crn = 0b1000#4
    · exact .inl ⟨h, h8, by simp [decodeWord, h, h8]⟩
    · by_cases h9 : (sysFields w).crn = 0b1001#4
      · exact .inr (.inl ⟨h, h9, by simp [decodeWord, h, h9]⟩)
      · exact .inr (.inr (by simp [decodeWord, h, h8, h9]))
  · exact .inr (.inr (by simp [decodeWord, h]))

/-- The six field values the two rows share. -/
theorem SysFields.eq_of_isRvaae1osSpace {f : SysFields} (h : f.isRvaae1osSpace = true) :
    f.fixed = 0b1101010100#10 ∧ f.l = 0b0#1 ∧ f.op0 = 0b01#2 ∧ f.op1 = 0b000#3 ∧ f.crm = 0b0101#4
      ∧ f.op2 = 0b011#3 := by
  simp only [SysFields.isRvaae1osSpace, Bool.and_eq_true, beq_iff_eq] at h
  tauto

end Sys2Proof
end

