-- ==== Sys2Proof/Laws/State.lean ====
section
/-! SUPPORT. One lemma per field of State per update, true by rfl: later proofs never unfold a record update. -/

namespace Sys2Proof.Machine

@[simp] theorem State.setPe_cfg (s : State) (p : PE) : (s.setPe p).cfg = s.cfg := rfl
@[simp] theorem State.setPe_self (s : State) (p : PE) : (s.setPe p).self = s.self := rfl
@[simp] theorem State.setPe_pe (s : State) (p : PE) : (s.setPe p).pe = p := rfl
@[simp] theorem State.setPe_others (s : State) (p : PE) : (s.setPe p).others = s.others := rfl
@[simp] theorem State.setPe_mem (s : State) (p : PE) : (s.setPe p).mem = s.mem := rfl
@[simp] theorem State.setPe_tlb (s : State) (p : PE) : (s.setPe p).tlb = s.tlb := rfl
@[simp] theorem State.setPe_accesses (s : State) (p : PE) : (s.setPe p).accesses = s.accesses := rfl
@[simp] theorem State.setPe_pending (s : State) (p : PE) : (s.setPe p).pending = s.pending := rfl
@[simp] theorem State.setPe_schedule (s : State) (p : PE) : (s.setPe p).schedule = s.schedule := rfl

@[simp] theorem State.setTlb_cfg (s : State) (l : List Cached) : (s.setTlb l).cfg = s.cfg := rfl
@[simp] theorem State.setTlb_self (s : State) (l : List Cached) : (s.setTlb l).self = s.self := rfl
@[simp] theorem State.setTlb_pe (s : State) (l : List Cached) : (s.setTlb l).pe = s.pe := rfl
@[simp] theorem State.setTlb_others (s : State) (l : List Cached) : (s.setTlb l).others = s.others := rfl
@[simp] theorem State.setTlb_mem (s : State) (l : List Cached) : (s.setTlb l).mem = s.mem := rfl
@[simp] theorem State.setTlb_tlb (s : State) (l : List Cached) : (s.setTlb l).tlb = l := rfl
@[simp] theorem State.setTlb_accesses (s : State) (l : List Cached) : (s.setTlb l).accesses = s.accesses := rfl
@[simp] theorem State.setTlb_pending (s : State) (l : List Cached) : (s.setTlb l).pending = s.pending := rfl
@[simp] theorem State.setTlb_schedule (s : State) (l : List Cached) : (s.setTlb l).schedule = s.schedule := rfl

@[simp] theorem State.setPending_cfg (s : State) (l : List TlbiOp) : (s.setPending l).cfg = s.cfg := rfl
@[simp] theorem State.setPending_self (s : State) (l : List TlbiOp) : (s.setPending l).self = s.self := rfl
@[simp] theorem State.setPending_pe (s : State) (l : List TlbiOp) : (s.setPending l).pe = s.pe := rfl
@[simp] theorem State.setPending_others (s : State) (l : List TlbiOp) : (s.setPending l).others = s.others := rfl
@[simp] theorem State.setPending_mem (s : State) (l : List TlbiOp) : (s.setPending l).mem = s.mem := rfl
@[simp] theorem State.setPending_tlb (s : State) (l : List TlbiOp) : (s.setPending l).tlb = s.tlb := rfl
@[simp] theorem State.setPending_accesses (s : State) (l : List TlbiOp) : (s.setPending l).accesses = s.accesses := rfl
@[simp] theorem State.setPending_pending (s : State) (l : List TlbiOp) : (s.setPending l).pending = l := rfl
@[simp] theorem State.setPending_schedule (s : State) (l : List TlbiOp) : (s.setPending l).schedule = s.schedule := rfl

@[simp] theorem State.setAccesses_cfg (s : State) (l : List Access) : (s.setAccesses l).cfg = s.cfg := rfl
@[simp] theorem State.setAccesses_self (s : State) (l : List Access) : (s.setAccesses l).self = s.self := rfl
@[simp] theorem State.setAccesses_pe (s : State) (l : List Access) : (s.setAccesses l).pe = s.pe := rfl
@[simp] theorem State.setAccesses_others (s : State) (l : List Access) : (s.setAccesses l).others = s.others := rfl
@[simp] theorem State.setAccesses_mem (s : State) (l : List Access) : (s.setAccesses l).mem = s.mem := rfl
@[simp] theorem State.setAccesses_tlb (s : State) (l : List Access) : (s.setAccesses l).tlb = s.tlb := rfl
@[simp] theorem State.setAccesses_accesses (s : State) (l : List Access) : (s.setAccesses l).accesses = l := rfl
@[simp] theorem State.setAccesses_pending (s : State) (l : List Access) : (s.setAccesses l).pending = s.pending := rfl
@[simp] theorem State.setAccesses_schedule (s : State) (l : List Access) : (s.setAccesses l).schedule = s.schedule := rfl

@[simp] theorem State.setSchedule_cfg (s : State) (l : List Move) : (s.setSchedule l).cfg = s.cfg := rfl
@[simp] theorem State.setSchedule_self (s : State) (l : List Move) : (s.setSchedule l).self = s.self := rfl
@[simp] theorem State.setSchedule_pe (s : State) (l : List Move) : (s.setSchedule l).pe = s.pe := rfl
@[simp] theorem State.setSchedule_others (s : State) (l : List Move) : (s.setSchedule l).others = s.others := rfl
@[simp] theorem State.setSchedule_mem (s : State) (l : List Move) : (s.setSchedule l).mem = s.mem := rfl
@[simp] theorem State.setSchedule_tlb (s : State) (l : List Move) : (s.setSchedule l).tlb = s.tlb := rfl
@[simp] theorem State.setSchedule_accesses (s : State) (l : List Move) : (s.setSchedule l).accesses = s.accesses := rfl
@[simp] theorem State.setSchedule_pending (s : State) (l : List Move) : (s.setSchedule l).pending = s.pending := rfl
@[simp] theorem State.setSchedule_schedule (s : State) (l : List Move) : (s.setSchedule l).schedule = l := rfl

@[simp] theorem State.advancePc_cfg (s : State) : s.advancePc.cfg = s.cfg := rfl
@[simp] theorem State.advancePc_self (s : State) : s.advancePc.self = s.self := rfl
@[simp] theorem State.advancePc_pe (s : State) : s.advancePc.pe = { s.pe with pc := s.pe.pc + 4 } := rfl
@[simp] theorem State.advancePc_others (s : State) : s.advancePc.others = s.others := rfl
@[simp] theorem State.advancePc_mem (s : State) : s.advancePc.mem = s.mem := rfl
@[simp] theorem State.advancePc_tlb (s : State) : s.advancePc.tlb = s.tlb := rfl
@[simp] theorem State.advancePc_accesses (s : State) : s.advancePc.accesses = s.accesses := rfl
@[simp] theorem State.advancePc_pending (s : State) : s.advancePc.pending = s.pending := rfl
@[simp] theorem State.advancePc_schedule (s : State) : s.advancePc.schedule = s.schedule := rfl

@[simp] theorem State.evict_cfg (s : State) (p : Cached) : (s.evict p).cfg = s.cfg := rfl
@[simp] theorem State.evict_self (s : State) (p : Cached) : (s.evict p).self = s.self := rfl
@[simp] theorem State.evict_pe (s : State) (p : Cached) : (s.evict p).pe = s.pe := rfl
@[simp] theorem State.evict_others (s : State) (p : Cached) : (s.evict p).others = s.others := rfl
@[simp] theorem State.evict_mem (s : State) (p : Cached) : (s.evict p).mem = s.mem := rfl
@[simp] theorem State.evict_tlb (s : State) (p : Cached) : (s.evict p).tlb = s.tlb.filter (· != p) := rfl
@[simp] theorem State.evict_accesses (s : State) (p : Cached) : (s.evict p).accesses = s.accesses := rfl
@[simp] theorem State.evict_pending (s : State) (p : Cached) : (s.evict p).pending = s.pending.map fun op => { op with todo := op.todo.filter (· != p) } := rfl
@[simp] theorem State.evict_schedule (s : State) (p : Cached) : (s.evict p).schedule = s.schedule := rfl

@[simp] theorem issueTlbi_cfg (op : TlbiOp) (s : State) : (issueTlbi op s).cfg = s.cfg := rfl
@[simp] theorem issueTlbi_self (op : TlbiOp) (s : State) : (issueTlbi op s).self = s.self := rfl
@[simp] theorem issueTlbi_pe (op : TlbiOp) (s : State) : (issueTlbi op s).pe = s.pe := rfl
@[simp] theorem issueTlbi_others (op : TlbiOp) (s : State) : (issueTlbi op s).others = s.others := rfl
@[simp] theorem issueTlbi_mem (op : TlbiOp) (s : State) : (issueTlbi op s).mem = s.mem := rfl
@[simp] theorem issueTlbi_tlb (op : TlbiOp) (s : State) : (issueTlbi op s).tlb = s.tlb := rfl
@[simp] theorem issueTlbi_accesses (op : TlbiOp) (s : State) : (issueTlbi op s).accesses = s.accesses := rfl
@[simp] theorem issueTlbi_pending (op : TlbiOp) (s : State) : (issueTlbi op s).pending = s.pending ++ [{ op with inScope := requiredSet s op, todo := requiredSet s op }] := rfl
@[simp] theorem issueTlbi_schedule (op : TlbiOp) (s : State) : (issueTlbi op s).schedule = s.schedule := rfl

@[simp] theorem State.afterIssue_cfg (s : State) (op : TlbiOp) : (s.afterIssue op).cfg = s.cfg := rfl
@[simp] theorem State.afterIssue_self (s : State) (op : TlbiOp) : (s.afterIssue op).self = s.self := rfl
@[simp] theorem State.afterIssue_pe (s : State) (op : TlbiOp) : (s.afterIssue op).pe = { s.pe with pc := s.pe.pc + 4 } := rfl
@[simp] theorem State.afterIssue_others (s : State) (op : TlbiOp) : (s.afterIssue op).others = s.others := rfl
@[simp] theorem State.afterIssue_mem (s : State) (op : TlbiOp) : (s.afterIssue op).mem = s.mem := rfl
@[simp] theorem State.afterIssue_tlb (s : State) (op : TlbiOp) : (s.afterIssue op).tlb = s.tlb := rfl
@[simp] theorem State.afterIssue_accesses (s : State) (op : TlbiOp) : (s.afterIssue op).accesses = s.accesses := rfl
@[simp] theorem State.afterIssue_pending (s : State) (op : TlbiOp) : (s.afterIssue op).pending = s.pending ++ [op] := rfl
@[simp] theorem State.afterIssue_schedule (s : State) (op : TlbiOp) : (s.afterIssue op).schedule = s.schedule := rfl

@[simp] theorem PE.enter_x (p : PE) (l : EL) (o : ExcOutcome) : (p.enter l o).x = p.x := by
  cases l <;> rfl

@[simp] theorem PE.enter_hcrEl2 (p : PE) (l : EL) (o : ExcOutcome) : (p.enter l o).hcrEl2 = p.hcrEl2 := by
  cases l <;> rfl

@[simp] theorem PE.enter_scrEl3 (p : PE) (l : EL) (o : ExcOutcome) : (p.enter l o).scrEl3 = p.scrEl3 := by
  cases l <;> rfl

@[simp] theorem PE.enter_hfgitrEl2 (p : PE) (l : EL) (o : ExcOutcome) : (p.enter l o).hfgitrEl2 = p.hfgitrEl2 := by
  cases l <;> rfl

@[simp] theorem PE.enter_hcrxEl2 (p : PE) (l : EL) (o : ExcOutcome) : (p.enter l o).hcrxEl2 = p.hcrxEl2 := by
  cases l <;> rfl

@[simp] theorem PE.enter_tcrEl1 (p : PE) (l : EL) (o : ExcOutcome) : (p.enter l o).tcrEl1 = p.tcrEl1 := by
  cases l <;> rfl

@[simp] theorem PE.enter_vmid (p : PE) (l : EL) (o : ExcOutcome) : (p.enter l o).vmid = p.vmid := by
  cases l <;> rfl

@[simp] theorem PE.enter_mark (p : PE) (l : EL) (o : ExcOutcome) : (p.enter l o).mark = p.mark := by
  cases l <;> rfl

@[simp] theorem State.takeException_cfg (s : State) (o : ExcOutcome) : (s.takeException o).cfg = s.cfg := by
  unfold State.takeException; split <;> rfl

@[simp] theorem State.takeException_self (s : State) (o : ExcOutcome) : (s.takeException o).self = s.self := by
  unfold State.takeException; split <;> rfl

@[simp] theorem State.takeException_others (s : State) (o : ExcOutcome) : (s.takeException o).others = s.others := by
  unfold State.takeException; split <;> rfl

@[simp] theorem State.takeException_mem (s : State) (o : ExcOutcome) : (s.takeException o).mem = s.mem := by
  unfold State.takeException; split <;> rfl

@[simp] theorem State.takeException_tlb (s : State) (o : ExcOutcome) : (s.takeException o).tlb = s.tlb := by
  unfold State.takeException; split <;> rfl

@[simp] theorem State.takeException_accesses (s : State) (o : ExcOutcome) : (s.takeException o).accesses = s.accesses := by
  unfold State.takeException; split <;> rfl

@[simp] theorem State.takeException_pending (s : State) (o : ExcOutcome) : (s.takeException o).pending = s.pending := by
  unfold State.takeException; split <;> rfl

@[simp] theorem State.takeException_schedule (s : State) (o : ExcOutcome) : (s.takeException o).schedule = s.schedule := by
  unfold State.takeException; split <;> rfl

end Sys2Proof.Machine
end

