-- ==== Sys2Proof/Laws/Ops.lean ====
section
/-! SUPPORT. One law per shared operation of Machine/Ops.lean: everything it can do. -/

namespace Sys2Proof.Machine

/-- `X[31, 64]` is zero. -/
@[simp] theorem State.readX_thirtyOne (s : State) : s.readX 31 = 0 := rfl

/-- `X[t, 64]` is the register. -/
theorem State.readX_of_lt (s : State) {t : Nat} (h : t < 31) : s.readX t = s.pe.x[t] := by
  simp [State.readX, h]

/-! ### Taking an exception -/

/-- The default entry records a mark and nothing else. -/
theorem State.takeException_faultMark {s : State} (h : s.cfg.trapEntry = .faultMark) (o : ExcOutcome) :
    s.takeException o = { s with pe := { s.pe with mark := some o } } := by
  simp [State.takeException, h, State.setPe]

/-- The architecture's entry replaces the executing PE by the one that has entered its target level. -/
theorem State.takeException_architectural {s : State} (h : s.cfg.trapEntry = .architectural) (o : ExcOutcome) :
    s.takeException o = { s with pe := s.pe.enter (s.excTarget o) o } := by
  simp [State.takeException, h, State.setPe]

/-- Entering a level keeps every vector base. -/
theorem PE.enter_vbar (p : PE) (l : EL) (o : ExcOutcome) :
    (p.enter l o).exc1.vbar = p.exc1.vbar ∧ (p.enter l o).exc2.vbar = p.exc2.vbar
      ∧ (p.enter l o).exc3.vbar = p.exc3.vbar := by
  cases l <;> exact ⟨rfl, rfl, rfl⟩

/-- A `TrapEntry` left open replaces the executing PE by any. -/
theorem State.takeException_leftOpen {s : State} (h : s.cfg.trapEntry = .leftOpen) (o : ExcOutcome) :
    s.takeException o = { s with pe := freeTrapEntry s o } := by
  simp [State.takeException, h, State.setPe]

theorem PE.SameRegisters.refl (p : PE) : p.SameRegisters p := ⟨rfl, rfl, rfl, rfl, rfl, rfl, rfl, rfl, rfl, rfl⟩

/-- No exception writes a general register, a System register field, the VMID or a vector base, unless `TrapEntry` is
left open. -/
theorem State.takeException_sameRegisters {s : State} (h : s.cfg.trapEntry ≠ .leftOpen) (o : ExcOutcome) :
    s.pe.SameRegisters (s.takeException o).pe := by
  cases ht : s.cfg.trapEntry
  · rw [State.takeException_faultMark ht]; exact ⟨rfl, rfl, rfl, rfl, rfl, rfl, rfl, rfl, rfl, rfl⟩
  · obtain ⟨a, b, c⟩ := PE.enter_vbar s.pe (s.excTarget o) o
    rw [State.takeException_architectural ht]
    exact ⟨PE.enter_x .., PE.enter_hcrEl2 .., PE.enter_scrEl3 .., PE.enter_hfgitrEl2 .., PE.enter_hcrxEl2 ..,
      PE.enter_tcrEl1 .., PE.enter_vmid .., a, b, c⟩
  · exact absurd ht h

/-- Where a PE that entered a level stands. -/
@[simp] theorem PE.enter_pstate (p : PE) (l : EL) (o : ExcOutcome) :
    (p.enter l o).pstate = { el := l, intMasked := true } := rfl

@[simp] theorem PE.enter_pc (p : PE) (l : EL) (o : ExcOutcome) :
    (p.enter l o).pc = (p.excRegs l).vbar + vectorOffset p.pstate.el l := rfl

/-- What a PE that entered a level (above EL0) saved there. -/
theorem PE.enter_excRegs (p : PE) {l : EL} (o : ExcOutcome) :
    (p.enter l o).excRegs l = { elr := o.pc, spsr := p.pstate, esr := o.esr, vbar := (p.excRegs l).vbar } := by
  cases l <;> rfl

/-- Entering a level leaves the exception registers of the other levels above EL0 alone. -/
theorem PE.enter_excRegs_of_ne (p : PE) {l l' : EL} (o : ExcOutcome) (hl : l ≠ .el0) (hl' : l' ≠ .el0) (h : l' ≠ l) :
    (p.enter l o).excRegs l' = p.excRegs l' := by
  cases l <;> cases l' <;> first | rfl | exact absurd rfl hl | exact absurd rfl hl' | exact absurd rfl h

/-! ### PEs -/

@[simp] theorem State.peOf_self (s : State) : s.peOf s.self = some s.pe := by simp [State.peOf]

/-- Switching to a PE: it becomes the executing one, and nothing but which PE that is changes. -/
theorem State.switchTo_cases {s u : State} {n : Nat} (h : s.switchTo n = some u) :
    (n = s.self ∧ u = s) ∨ ∃ p, n ≠ s.self ∧ s.others.lookup n = some p
      ∧ u = { s with self := n, pe := p, others := replacePe n s.self s.pe s.others } := by
  unfold State.switchTo at h
  split at h
  · exact .inl ⟨‹_›, (Option.some.inj h).symm⟩
  · split at h
    · exact .inr ⟨_, ‹_›, ‹_›, (Option.some.inj h).symm⟩
    · cases h

/-- Switching changes nothing but which PE is the executing one. -/
theorem State.switchTo_frame {s u : State} {n : Nat} (h : s.switchTo n = some u) :
    u.cfg = s.cfg ∧ u.mem = s.mem ∧ u.tlb = s.tlb ∧ u.accesses = s.accesses ∧ u.pending = s.pending
      ∧ u.schedule = s.schedule := by
  rcases State.switchTo_cases h with ⟨-, rfl⟩ | ⟨p, -, -, rfl⟩ <;> simp

/-- What `replacePe` finds under another number. -/
theorem lookup_replacePe {n k j : Nat} {p : PE} {r : List (Nat × PE)} (hj : j ≠ n) (hjk : j ≠ k) :
    (replacePe n k p r).lookup j = r.lookup j := by
  induction r with
  | nil => rfl
  | cons c r ih =>
    obtain ⟨m, q⟩ := c
    have hjk' : (j == k) = false := by simpa using hjk
    simp only [replacePe]
    split
    · subst_vars
      have hj' : (j == m) = false := by simpa using hj
      simp [List.lookup_cons, hjk', hj']
    · simp [List.lookup_cons, ih]

/-- What `replacePe` finds under the number put in. -/
theorem lookup_replacePe_self {n k : Nat} {p : PE} {r : List (Nat × PE)} (hk : k ∉ r.map Prod.fst)
    (hn : n ∈ r.map Prod.fst) : (replacePe n k p r).lookup k = some p := by
  induction r with
  | nil => simp at hn
  | cons c r ih =>
    obtain ⟨m, q⟩ := c
    simp only [List.map_cons, List.mem_cons, not_or] at hk hn
    simp only [replacePe]
    split
    · simp
    · rename_i hne
      have hkm : (k == m) = false := by simpa using hk.1
      simp [List.lookup_cons, hkm, ih hk.2 (hn.resolve_left (fun h => hne h.symm))]

/-- A number that is looked up is one of the numbers. -/
theorem mem_numbers_of_lookup {n : Nat} {p : PE} {r : List (Nat × PE)} (h : r.lookup n = some p) :
    (n, p) ∈ r ∧ n ∈ r.map Prod.fst := by
  induction r with
  | nil => simp at h
  | cons c r ih =>
    obtain ⟨m, q⟩ := c
    rw [List.lookup_cons] at h
    split at h
    · simp_all
    · have := ih h; simp_all

/-- The PEs after the swap are those before it, in another order. -/
theorem perm_replacePe {n k : Nat} {p q : PE} {r : List (Nat × PE)} (h : r.lookup n = some q) :
    List.Perm ((n, q) :: replacePe n k p r) ((k, p) :: r) := by
  induction r with
  | nil => simp at h
  | cons c r ih =>
    obtain ⟨m, q'⟩ := c
    simp only [replacePe]
    split
    · subst_vars
      simp only [List.lookup_cons_self, Option.some.injEq] at h
      subst h
      exact List.Perm.swap _ _ _
    · have hne : (n == m) = false := by simpa using fun h : n = m => absurd h.symm ‹_›
      rw [List.lookup_cons, hne] at h
      exact (List.Perm.swap _ _ _).trans (((ih h).cons _).trans (List.Perm.swap _ _ _))

/-- Switching permutes the PEs of the system. -/
theorem State.switchTo_pes_perm {s u : State} {n : Nat} (h : s.switchTo n = some u) : List.Perm u.pes s.pes := by
  rcases State.switchTo_cases h with ⟨-, rfl⟩ | ⟨p, -, hp, rfl⟩
  · exact .rfl
  · exact perm_replacePe hp

/-- Switching changes no PE. -/
theorem State.switchTo_peOf {s u : State} {n : Nat} (hs : (s.pes.map Prod.fst).Nodup) (h : s.switchTo n = some u)
    (j : Nat) : u.peOf j = s.peOf j := by
  rcases State.switchTo_cases h with ⟨-, rfl⟩ | ⟨p, hn, hp, rfl⟩
  · rfl
  · simp only [State.pes, List.map_cons, List.nodup_cons] at hs
    simp only [State.peOf]
    by_cases hj : j = n
    · subst hj; simp [hn, hp]
    · by_cases hjs : j = s.self
      · subst hjs
        simp [hj, lookup_replacePe_self hs.1 (mem_numbers_of_lookup hp).2]
      · simp [hj, hjs, lookup_replacePe hj hjs]

/-- A PE other than the executing one is found in `others` whatever the executing one is. -/
theorem State.peOf_of_others {s u : State} (hs : u.self = s.self) (ho : u.others = s.others) {n : Nat}
    (hn : n ≠ s.self) : u.peOf n = s.peOf n := by
  simp [State.peOf, hs, ho, hn]

/-- A PE that is found is one of the system's. -/
theorem State.mem_pes_of_peOf {s : State} {n : Nat} {p : PE} (h : s.peOf n = some p) : (n, p) ∈ s.pes := by
  unfold State.peOf at h
  split at h
  · cases h; subst_vars; exact List.mem_cons_self
  · exact List.mem_cons_of_mem _ (mem_numbers_of_lookup h).1

/-! ### TLBs -/

/-- Evicting an entry takes exactly it out of its TLB. -/
@[simp] theorem State.mem_evict_tlb {s : State} {p q : Cached} : q ∈ (s.evict p).tlb ↔ q ∈ s.tlb ∧ q ≠ p := by
  simp [List.mem_filter]

/-- Every pending operation after an eviction is one from before with the entry out of its `todo`. -/
theorem State.mem_evict_pending {s : State} {p : Cached} {o : TlbiOp} :
    o ∈ (s.evict p).pending ↔ ∃ op ∈ s.pending, o = { op with todo := op.todo.filter (· != p) } := by
  simp [List.mem_map, eq_comm]

/-- A fill changes nothing, or adds one possible entry that was not there to the TLB of an agent. -/
theorem State.fillTlb_cases (s : State) (p : Cached) :
    s.fillTlb p = s ∨ (p.1 ∈ s.cfg.agents ∧ entryOk s.cfg p.2 = true ∧ p ∉ s.tlb
      ∧ s.fillTlb p = s.setTlb (s.tlb ++ [p])) := by
  unfold State.fillTlb
  split
  · rename_i h
    simp only [Bool.and_eq_true, List.contains_iff_mem, Bool.not_eq_true', Bool.eq_false_iff, ne_eq] at h
    exact .inr ⟨h.1.1, h.1.2, h.2, rfl⟩
  · exact .inl rfl

end Sys2Proof.Machine
end

