-- ==== Sys2Proof/Laws/Operands.lean ====
section
/-! SUPPORT. Small laws of the register operand. -/

namespace Sys2Proof.Machine

/-- Every TG but the reserved one has a granule. -/
theorem granuleOfTg_of_ne {tg : BitVec 2} (h : tg ≠ 0b00#2) : ∃ g, granuleOfTg tg = some g := by
  have : ∀ tg : BitVec 2, tg ≠ 0b00#2 → (granuleOfTg tg).isSome = true := by decide
  exact Option.isSome_iff_exists.1 (this tg h)

@[simp] theorem granuleOfTg_zero : granuleOfTg 0b00#2 = none := rfl

/-- The place of the field: from bit 12, 14 or 16. -/
theorem baseShift_bounds (b : Bool) (g : Granule) :
    g.shift ≤ baseShift b g ∧ 12 ≤ baseShift b g ∧ baseShift b g ≤ 16 := by
  cases b <;> cases g <;> decide

/-- The range of a granule's operand. -/
theorem rangeOf_of_granule {cfg : Config} {ds : Bool} {d : XtFields} {g : Granule} (h : granuleOfTg d.tg = some g) :
    rangeOf cfg ds d = some { base := baseOf cfg ds d g, len := rangeLen d.num d.scale g } := by
  simp [rangeOf, h]

/-- An operand with a range has a granule. -/
theorem granule_of_rangeOf {cfg : Config} {ds : Bool} {d : XtFields} {r : AddrRange} (h : rangeOf cfg ds d = some r) :
    ∃ g, granuleOfTg d.tg = some g ∧ r = { base := baseOf cfg ds d g, len := rangeLen d.num d.scale g } := by
  obtain ⟨g, hg, h⟩ := Option.map_eq_some_iff.1 h
  exact ⟨g, hg, h.symm⟩

/-- The reserved TG guarantees nothing. -/
theorem guaranteedOf_of_reserved {cfg : Config} {ds agreed : Bool} {d : XtFields} (h : granuleOfTg d.tg = none) :
    guaranteedOf cfg ds agreed d = false := by
  simp [guaranteedOf, h]

/-- `guaranteedOf` of an operand with a granule. -/
theorem guaranteedOf_of_granule {cfg : Config} {ds agreed : Bool} {d : XtFields} {g : Granule}
    (h : granuleOfTg d.tg = some g) :
    guaranteedOf cfg ds agreed d =
      (!unpredictable (effectiveTtl cfg d) g (baseOf cfg ds d g)
        && !(ttl01Reserved cfg d && cfg.ttl01At16K == .noGuarantee)
        && agreed
        && !(effectiveTtl cfg d == 0b01#2 && cfg.ttl01Misaligned == .noGuarantee
          && level1Misaligned g (baseOf cfg ds d g))
        && !(d.baFld.msb && cfg.baseAddrUpper == .leftOpen)) := by
  simp [guaranteedOf, h]

/-- Where the TTL value is reserved. -/
theorem ttl01Reserved_iff {cfg : Config} {d : XtFields} :
    ttl01Reserved cfg d = true ↔ cfg.featLpa2 = false ∧ d.tg = 0b10#2 ∧ d.ttl = 0b01#2 := by
  simp [ttl01Reserved, and_assoc]

end Sys2Proof.Machine
end

