-- ==== Sys2Proof/Laws/PerInstr.lean ====
section
/-! SUPPORT. The family of statements made per instruction: every instruction's word lies in its row of the opcode
table (spec/opcode_table.json, match and mask). -/

namespace Sys2Proof.Laws.WordInItsRow

/-- The match of the instruction's row. -/
def rowMatch : Instr → InstrWord
  | .tlbiRvaae1os _ => 0xD5088560
  | .tlbiRvaae1osnxs _ => 0xD5089560

/-- The word of `i`, under the table's mask, is the match of its row. -/
def Statement (i : Instr) : Prop := encode i &&& 0xFFFFFFE0 = rowMatch i

/-- The mask drops the register field and keeps the rest. -/
theorem mask_sysWord (op0 : BitVec 2) (op1 : BitVec 3) (crn crm : BitVec 4) (op2 : BitVec 3) (rt : BitVec 5) :
    sysWord op0 op1 crn crm op2 rt &&& 0xFFFFFFE0 = sysWord op0 op1 crn crm op2 0 := by
  have key : ∀ (h : BitVec 27) (r : BitVec 5), (h ++ r) &&& ((BitVec.allOnes 27) ++ 0#5) = h ++ 0#5 := by
    intro h r
    rw [BitVec.and_append, BitVec.and_allOnes, BitVec.and_zero]
  exact key (0b1101010100#10 ++ 0b0#1 ++ op0 ++ op1 ++ crn ++ crm ++ op2) rt

theorem tlbiRvaae1os (t : Nat) : Statement (.tlbiRvaae1os t) := by
  simp only [Statement, encode, mask_sysWord]; rfl

theorem tlbiRvaae1osnxs (t : Nat) : Statement (.tlbiRvaae1osnxs t) := by
  simp only [Statement, encode, mask_sysWord]; rfl

end Sys2Proof.Laws.WordInItsRow
end

