-- ==== Sys2Proof/Laws/Tlbi.lean ====
section
/-! SUPPORT. What the operation and the two instructions can do: one inversion lemma each. -/

namespace Sys2Proof.Machine

/-- Membership in the recorded required sets. -/
theorem mem_requiredSet {s : State} {op : TlbiOp} {p : Cached} :
    p ∈ requiredSet s op ↔ p ∈ s.tlb ∧ inOsh s.cfg op.issuer p.1 = true ∧ required s op p.1 p.2 = true := by
  simp [requiredSet, List.mem_filter]

/-- Overlap as two comparisons of naturals. -/
theorem overlaps_iff {e : TLBEntry} {r : AddrRange} :
    overlaps e r = true ↔ e.vaLo.toNat < r.base.toNat + r.len ∧ r.base.toNat ≤ e.vaHi.toNat := by
  rw [overlaps, Bool.and_eq_true, decide_eq_true_eq, decide_eq_true_eq]; rfl

/-- The operation that issuing adds to the pending set. -/
def issued (s : State) (op : TlbiOp) : TlbiOp := { op with inScope := requiredSet s op, todo := requiredSet s op }

/-- Issuing and advancing pc is `afterIssue` of the operation with its required sets. -/
theorem advancePc_issueTlbi (op : TlbiOp) (s : State) : (issueTlbi op s).advancePc = s.afterIssue (issued s op) := rfl

/-- The record that is issued is the one the argument describes. -/
theorem issued_buildOp_issuedBy (s : State) (sec : SecurityState) (regime : Regime) (vmid : Option Vmid)
    (attr : TlbiAttr) (agreed : Bool) (xt : Word) :
    (issued s (buildOp s sec regime vmid attr agreed xt)).IssuedBy s xt agreed :=
  { issuer := rfl, shareability := rfl, level := rfl, tg := rfl, scale := rfl, num := rfl, ttl := rfl, range := rfl
    guaranteed := rfl, todo := rfl
    inScope := fun _ => mem_requiredSet }

/-- Everything `TLBI_RVAA` can do: refuse for the reserved Security state or the reserved TG, or issue. -/
theorem tlbiRvaa_cases (regime : Regime) (vmid : Option Vmid) (attr : TlbiAttr) (agreed : Bool) (xt : Word)
    (s : State) :
    (s.secState = none ∧ tlbiRvaa regime vmid attr agreed xt s = .refused .reservedSecurityState)
    ∨ (s.secState ≠ none ∧ (decodeXt xt).tg = 0b00#2 ∧ s.cfg.tgReserved = .refuse
        ∧ tlbiRvaa regime vmid attr agreed xt s = .refused .reservedGranule)
    ∨ ∃ sec, s.secState = some sec ∧ tlbiRvaa regime vmid attr agreed xt s
        = .next (s.afterIssue (issued s (buildOp s sec regime vmid attr agreed xt))) := by
  unfold tlbiRvaa
  split
  · exact .inl ⟨‹_›, rfl⟩
  · rename_i sec hsec
    split
    · rename_i h; exact .inr (.inl ⟨by simp [hsec], h.1, h.2, rfl⟩)
    · exact .inr (.inr ⟨sec, hsec, rfl⟩)

/-- `TLBI_RVAA` issues when the Security state and the operand allow it. -/
theorem tlbiRvaa_of_accepted {regime : Regime} {vmid : Option Vmid} {attr : TlbiAttr} {agreed : Bool} {xt : Word}
    {s : State} {sec : SecurityState} (hsec : s.secState = some sec) (h : s.operandAccepted xt) :
    tlbiRvaa regime vmid attr agreed xt s
      = .next (s.afterIssue (issued s (buildOp s sec regime vmid attr agreed xt))) := by
  rcases tlbiRvaa_cases regime vmid attr agreed xt s with ⟨h0, -⟩ | ⟨-, ht, hr, -⟩ | ⟨sec', hs, he⟩
  · simp [hsec] at h0
  · rcases h with h | h
    · exact absurd ht h
    · simp [hr] at h
  · cases hsec.symm.trans hs; exact he

/-- The two instructions differ in their attribute and their fine-grained trap only. -/
def Instr.trapped (s : State) : Instr → Bool
  | .tlbiRvaae1os _ => s.trapT1 || s.trapT2 || s.trapT3
  | .tlbiRvaae1osnxs _ => s.trapT1 || s.trapT2 || s.trapT3n

/-- Where an instruction is not there to be executed (60_exceptions.md R94, steps 1 to 3). -/
def Instr.isUndefined (s : State) : Instr → Bool
  | .tlbiRvaae1os _ => !present s.cfg || s.pe.pstate.el == .el0
  | .tlbiRvaae1osnxs _ => !present s.cfg || !s.cfg.featXs || s.pe.pstate.el == .el0

/-- A trap condition needs EL2 enabled. -/
theorem Instr.trapped_el2Enabled {s : State} {i : Instr} (h : Instr.trapped s i = true) : s.el2Enabled = true := by
  cases i <;>
    simp only [Instr.trapped, State.trapT1, State.trapT2, State.trapT3, State.trapT3n, Bool.or_eq_true,
      Bool.and_eq_true] at h <;> tauto

/-- Everything an instruction that answers a next state has done: `Undefined` where it is not there, a trap at EL1,
or one operation issued above EL0. -/
theorem exec_next_cases {i : Instr} {s u : State} (h : exec i s = .next u) :
    (Instr.isUndefined s i = true ∧ u = s.raiseUndefined)
    ∨ (Instr.isUndefined s i = false ∧ s.pe.pstate.el = .el1 ∧ Instr.trapped s i = true
        ∧ u = s.raiseSystemAccessTrap i)
    ∨ (Instr.isUndefined s i = false ∧ s.pe.pstate.el ≠ .el0
        ∧ ∃ sec regime vmid attr agreed xt, s.secState = some sec
          ∧ u = s.afterIssue (issued s (buildOp s sec regime vmid attr agreed xt))) := by
  have rvaa : ∀ {regime vmid attr agreed xt}, tlbiRvaa regime vmid attr agreed xt s = .next u →
      ∃ sec regime vmid attr agreed xt, s.secState = some sec
        ∧ u = s.afterIssue (issued s (buildOp s sec regime vmid attr agreed xt)) := by
    intro regime vmid attr agreed xt h
    rcases tlbiRvaa_cases regime vmid attr agreed xt s with ⟨-, he⟩ | ⟨-, -, -, he⟩ | ⟨sec, hs, he⟩
    · rw [he] at h; cases h
    · rw [he] at h; cases h
    · rw [he] at h; cases h; exact ⟨sec, regime, vmid, attr, agreed, xt, hs, rfl⟩
  have el23 : ∀ {attr t}, tlbiAtEl2El3 attr t s = .next u →
      ∃ sec regime vmid attr agreed xt, s.secState = some sec
        ∧ u = s.afterIssue (issued s (buildOp s sec regime vmid attr agreed xt)) := by
    intro attr t h
    unfold tlbiAtEl2El3 at h
    split at h <;> exact rvaa h
  cases i with
  | tlbiRvaae1os t =>
    simp only [exec, execTlbiRvaae1os] at h
    split at h
    · rename_i hp; cases h; exact .inl ⟨by simp_all [Instr.isUndefined], rfl⟩
    · rename_i hp
      split at h
      · rename_i hel; cases h; exact .inl ⟨by simp [Instr.isUndefined, hel], rfl⟩
      · rename_i hel
        split at h
        · rename_i ht; cases h
          exact .inr (.inl ⟨by simp_all [Instr.isUndefined], hel, ht, rfl⟩)
        · exact .inr (.inr ⟨by simp_all [Instr.isUndefined], by simp [hel], rvaa h⟩)
      · rename_i hel; exact .inr (.inr ⟨by simp_all [Instr.isUndefined], by simp [hel], el23 h⟩)
      · rename_i hel; exact .inr (.inr ⟨by simp_all [Instr.isUndefined], by simp [hel], el23 h⟩)
  | tlbiRvaae1osnxs t =>
    simp only [exec, execTlbiRvaae1osnxs] at h
    split at h
    · rename_i hp; cases h; exact .inl ⟨by simp_all [Instr.isUndefined], rfl⟩
    · rename_i hp
      split at h
      · rename_i hx; cases h; exact .inl ⟨by simp_all [Instr.isUndefined], rfl⟩
      · rename_i hx
        split at h
        · rename_i hel; cases h; exact .inl ⟨by simp [Instr.isUndefined, hel], rfl⟩
        · rename_i hel
          split at h
          · rename_i ht; cases h
            exact .inr (.inl ⟨by simp_all [Instr.isUndefined], hel, ht, rfl⟩)
          · exact .inr (.inr ⟨by simp_all [Instr.isUndefined], by simp [hel], rvaa h⟩)
        · rename_i hel; exact .inr (.inr ⟨by simp_all [Instr.isUndefined], by simp [hel], el23 h⟩)
        · rename_i hel; exact .inr (.inr ⟨by simp_all [Instr.isUndefined], by simp [hel], el23 h⟩)

/-- The frame of an instruction: everything but the executing PE and the pending operations stays. -/
theorem exec_frame {i : Instr} {s u : State} (h : exec i s = .next u) :
    u.cfg = s.cfg ∧ u.self = s.self ∧ u.others = s.others ∧ u.mem = s.mem ∧ u.tlb = s.tlb ∧ u.accesses = s.accesses
      ∧ u.schedule = s.schedule := by
  rcases exec_next_cases h with ⟨-, rfl⟩ | ⟨-, -, -, rfl⟩ | ⟨-, -, _, _, _, _, _, _, -, rfl⟩
  · simp [State.raiseUndefined]
  · simp [State.raiseSystemAccessTrap]
  · exact ⟨rfl, rfl, rfl, rfl, rfl, rfl, rfl⟩

/-- What an instruction makes of the pending operations: nothing, by an exception, or one more, by issuing. -/
theorem exec_pending_cases {i : Instr} {s u : State} (h : exec i s = .next u) :
    (u.pending = s.pending ∧ ∃ o, u = s.takeException o)
    ∨ ∃ sec regime vmid attr agreed xt, u = s.afterIssue (issued s (buildOp s sec regime vmid attr agreed xt)) := by
  rcases exec_next_cases h with ⟨-, rfl⟩ | ⟨-, -, -, rfl⟩ | ⟨-, -, sec, r, v, a, ag, x, -, rfl⟩
  · exact .inl ⟨by simp [State.raiseUndefined], _, rfl⟩
  · exact .inl ⟨by simp [State.raiseSystemAccessTrap], _, rfl⟩
  · exact .inr ⟨sec, r, v, a, ag, x, rfl⟩

/-- What an operation that guarantees nothing requires: nothing. -/
theorem requiredSet_of_not_guaranteed {s : State} {op : TlbiOp} (h : op.guaranteed = false) : requiredSet s op = [] := by
  simp [requiredSet, required, h]

end Sys2Proof.Machine
end

