-- ==== Sys2Proof/Laws/Step.lean ====
section
/-! SUPPORT. What the agents' moves and one step of the machine can do. -/

namespace Sys2Proof.Machine

/-- pc is a multiple of 4, as a number. -/
theorem pcAligned_iff {p : Word} : pcAligned p = true ↔ 4 ∣ p.toNat := by
  simp only [pcAligned, beq_iff_eq]
  rw [← BitVec.toNat_inj]
  simp [BitVec.extractLsb'_toNat]
  omega

/-- Everything a removal move can do. -/
theorem State.removeMove_cases (s : State) (k : Nat) (p : Cached) : s.removeMove k p = s ∨ s.removeMove k p = s.evict p := by
  unfold State.removeMove
  split
  · split
    · exact .inr rfl
    · exact .inl rfl
  · exact .inl rfl

/-- Everything a retirement can do: nothing, or take one complete operation out of the pending set. -/
theorem State.retireMove_cases (s : State) (k : Nat) :
    s.retireMove k = s ∨ ∃ op, s.pending[k]? = some op ∧ s.complete op = true
      ∧ s.retireMove k = s.setPending (s.pending.eraseIdx k) := by
  unfold State.retireMove
  split
  · split
    · exact .inr ⟨_, ‹_›, ‹_›, rfl⟩
    · exact .inl rfl
  · exact .inl rfl

/-- Everything a move of an agent other than a PE's instruction can do. -/
theorem State.agentMove_cases (s : State) (m : Move) :
    s.agentMove m = s ∨ (∃ p, s.agentMove m = s.evict p)
      ∨ (∃ p, m = .fill p.1 p.2 ∧ p.1 ∈ s.cfg.agents ∧ entryOk s.cfg p.2 = true ∧ p ∉ s.tlb
          ∧ s.agentMove m = s.setTlb (s.tlb ++ [p]))
      ∨ (∃ k op, m = .retire k ∧ s.pending[k]? = some op ∧ s.complete op = true
          ∧ s.agentMove m = s.setPending (s.pending.eraseIdx k))
      ∨ ∃ l, s.agentMove m = s.setAccesses l := by
  cases m with
  | run n => exact .inl rfl
  | remove k a e => exact (s.removeMove_cases k (a, e)).imp id fun h => .inl ⟨_, h⟩
  | discard a e => exact .inr (.inl ⟨_, rfl⟩)
  | fill a e => exact (s.fillTlb_cases (a, e)).imp id fun ⟨h1, h2, h3, h4⟩ => .inr (.inl ⟨_, rfl, h1, h2, h3, h4⟩)
  | retire k => exact (s.retireMove_cases k).imp id fun ⟨op, h1, h2, h3⟩ => .inr (.inr (.inl ⟨k, op, rfl, h1, h2, h3⟩))
  | beginAccess a used xs => exact .inr (.inr (.inr (.inr ⟨_, rfl⟩)))
  | endAccess k => exact .inr (.inr (.inr (.inr ⟨_, rfl⟩)))

/-- No move of an agent touches the PEs, memory, the configuration or the schedule. -/
theorem State.agentMove_frame (s : State) (m : Move) :
    (s.agentMove m).cfg = s.cfg ∧ (s.agentMove m).self = s.self ∧ (s.agentMove m).pe = s.pe
      ∧ (s.agentMove m).others = s.others ∧ (s.agentMove m).mem = s.mem ∧ (s.agentMove m).schedule = s.schedule := by
  rcases State.agentMove_cases s m with e | ⟨q, e⟩ | ⟨q, rfl, _, _, _, e⟩ | ⟨k, op, rfl, _, _, e⟩ | ⟨l, e⟩ <;>
    rw [e] <;> simp

/-! ### Moves of the agents' own accord -/

/-- What `firstRemoval` finds. -/
theorem firstRemoval_cases {k : Nat} {ops : List TlbiOp} :
    (firstRemoval k ops = none ∧ ∀ op ∈ ops, op.todo = [])
    ∨ ∃ j op p, ops[j]? = some op ∧ p ∈ op.todo ∧ firstRemoval k ops = some (.remove (k + j) p.1 p.2) := by
  induction ops generalizing k with
  | nil => exact .inl ⟨rfl, by simp⟩
  | cons op ops ih =>
    cases ht : op.todo with
    | cons p l => exact .inr ⟨0, op, p, rfl, by simp [ht], by simp [firstRemoval, ht]⟩
    | nil =>
      rcases ih (k := k + 1) with ⟨h, hall⟩ | ⟨j, o, p, hj, hp, h⟩
      · exact .inl ⟨by simp [firstRemoval, ht, h], by simpa [ht] using hall⟩
      · exact .inr ⟨j + 1, o, p, by simpa using hj, hp, by simp only [firstRemoval, ht, h]; congr 2; omega⟩

/-- What `firstRetirement` finds. -/
theorem State.firstRetirement_cases {s : State} {k : Nat} {ops : List TlbiOp} :
    (s.firstRetirement k ops = none ∧ ∀ op ∈ ops, s.complete op = false)
    ∨ ∃ j op, ops[j]? = some op ∧ s.complete op = true ∧ s.firstRetirement k ops = some (.retire (k + j)) := by
  induction ops generalizing k with
  | nil => exact .inl ⟨rfl, by simp⟩
  | cons op ops ih =>
    by_cases hc : s.complete op = true
    · exact .inr ⟨0, op, rfl, hc, by simp [State.firstRetirement, hc]⟩
    · rcases ih (k := k + 1) with ⟨h, hall⟩ | ⟨j, o, hj, hp, h⟩
      · exact .inl ⟨by simp [State.firstRetirement, hc, h], by simpa [hc] using hall⟩
      · exact .inr ⟨j + 1, o, by simpa using hj, hp, by
          simp only [State.firstRetirement, hc, h]; rw [if_neg (by simp)]; congr 2; omega⟩

/-- Everything `ownMove` can be: a removal still to be done; with none left, the retirement of a complete operation; or
nothing, when every pending operation has nothing to remove and is not complete. -/
theorem State.ownMove_cases (s : State) :
    (∃ k op p, s.pending[k]? = some op ∧ p ∈ op.todo ∧ s.ownMove = some (.remove k p.1 p.2))
    ∨ ((∀ op ∈ s.pending, op.todo = []) ∧ ∃ k op, s.pending[k]? = some op ∧ s.complete op = true
        ∧ s.ownMove = some (.retire k))
    ∨ ((∀ op ∈ s.pending, op.todo = [] ∧ s.complete op = false) ∧ s.ownMove = none) := by
  unfold State.ownMove
  rcases firstRemoval_cases (k := 0) (ops := s.pending) with ⟨h, hall⟩ | ⟨j, op, p, hj, hp, h⟩
  · rw [h]
    rcases State.firstRetirement_cases (s := s) (k := 0) (ops := s.pending) with ⟨h', hc⟩ | ⟨j, op, hj, hc, h'⟩
    · exact .inr (.inr ⟨fun op ho => ⟨hall op ho, hc op ho⟩, h'⟩)
    · exact .inr (.inl ⟨hall, j, op, hj, hc, by rw [h', Nat.zero_add]⟩)
  · rw [h]; exact .inl ⟨j, op, p, hj, hp, by rw [Nat.zero_add]⟩

/-- Nothing pending, nothing to do. -/
@[simp] theorem State.ownMove_of_pending_nil {s : State} (h : s.pending = []) : s.ownMove = none := by
  simp [State.ownMove, h, firstRemoval, State.firstRetirement]

/-- Everything a PE's turn that answers a next state can do: idle, or execute one instruction. -/
theorem runPe_next_cases {s u : State} (h : runPe s = .next u) :
    u = s ∨ ∃ i, s.turn = .execute i ∧ exec i s = .next u := by
  unfold runPe at h
  split at h
  · exact .inr ⟨_, ‹_›, h⟩
  · cases h; exact .inl rfl
  · cases h; exact .inl rfl
  · cases h
  · cases h

/-- A PE that executes has no fault mark. -/
theorem State.mark_of_turn_execute {s : State} {i : Instr} (h : s.turn = .execute i) : s.pe.mark = none := by
  unfold State.turn at h
  split at h
  · cases h
  · assumption

/-- A step that gives a PE its turn is that turn. -/
theorem step_of_givesTurn {s0 s : State} (h : s0.givesTurn s) : step s0 = runPe s := by
  rcases h with ⟨h, h', rfl⟩ | ⟨n, ms, h, h'⟩
  · simp [step, h, h']
  · simp [step, h, h']

/-- A step with nothing scheduled and a move of the agents' own accord is that move. -/
theorem step_of_ownMove {s : State} {m : Move} (h : s.schedule = []) (hm : s.ownMove = some m) :
    step s = .next (s.agentMove m) := by
  simp [step, h, hm]

/-- Everything a step that answers a next state can do: a PE's turn, a `run` of a PE that is not there, a scheduled move
of an agent, or a move of the agents' own accord. -/
theorem step_next_cases {s u : State} (h : step s = .next u) :
    (∃ s', s.givesTurn s' ∧ runPe s' = .next u)
    ∨ (∃ n ms, s.schedule = .run n :: ms ∧ u = s.setSchedule ms)
    ∨ (∃ m ms, s.schedule = m :: ms ∧ u = (s.setSchedule ms).agentMove m)
    ∨ ∃ m, s.schedule = [] ∧ s.ownMove = some m ∧ u = s.agentMove m := by
  unfold step at h
  split at h
  · rename_i hs
    split at h
    · cases h; exact .inr (.inr (.inr ⟨_, hs, ‹_›, rfl⟩))
    · exact .inl ⟨s, .inl ⟨hs, ‹_›, rfl⟩, h⟩
  · rename_i m ms hs
    split at h
    · rename_i n
      split at h
      · exact .inl ⟨_, .inr ⟨n, ms, hs, ‹_›⟩, h⟩
      · cases h; exact .inr (.inl ⟨n, ms, hs, rfl⟩)
    · cases h; exact .inr (.inr (.inl ⟨m, ms, hs, rfl⟩))

/-- What is the same in the state that has the turn as before the step, but for the schedule and which PE executes. -/
theorem State.givesTurn_frame {s0 s : State} (h : s0.givesTurn s) :
    s.cfg = s0.cfg ∧ s.mem = s0.mem ∧ s.tlb = s0.tlb ∧ s.accesses = s0.accesses ∧ s.pending = s0.pending
      ∧ List.Perm s.pes s0.pes := by
  rcases h with ⟨-, -, rfl⟩ | ⟨n, ms, -, h⟩
  · exact ⟨rfl, rfl, rfl, rfl, rfl, .rfl⟩
  · obtain ⟨a, b, c, d, e, -⟩ := State.switchTo_frame h
    exact ⟨a, b, c, d, e, State.switchTo_pes_perm (s := s0.setSchedule ms) h⟩

/-- The turn shows every PE as it was. -/
theorem State.givesTurn_peOf {s0 s : State} (hs : (s0.pes.map Prod.fst).Nodup) (h : s0.givesTurn s) (j : Nat) :
    s.peOf j = s0.peOf j := by
  rcases h with ⟨-, -, rfl⟩ | ⟨n, ms, -, h⟩
  · rfl
  · exact State.switchTo_peOf (s := s0.setSchedule ms) hs h j

/-! ### Runs -/

/-- A run of one step more goes on from the state after the step. -/
theorem run_succ_of_next {k : Nat} {s s' : State} (h : step s = .next s') :
    Host.Core.run Sys2Proof.core (k + 1) s = Host.Core.run Sys2Proof.core k s' := by
  have hs : Sys2Proof.core.step s = .next s' := h
  simp only [Host.Core.run]; rw [hs]

/-- A run of one step more that answers a next state made a step that did. -/
theorem run_succ_next {k : Nat} {s u : State} (h : Host.Core.run Sys2Proof.core (k + 1) s = .next u) :
    ∃ s', step s = .next s' ∧ Host.Core.run Sys2Proof.core k s' = .next u := by
  cases hs : step s with
  | next s' => exact ⟨s', rfl, (run_succ_of_next hs).symm.trans h⟩
  | fault r =>
    have hs : Sys2Proof.core.step s = .fault r := hs
    simp only [Host.Core.run] at h; rw [hs] at h; cases h
  | refused r =>
    have hs : Sys2Proof.core.step s = .refused r := hs
    simp only [Host.Core.run] at h; rw [hs] at h; cases h

end Sys2Proof.Machine
end

