-- ==== Sys2Proof/Tests/Slice0.lean ====
section
/-! SUPPORT. The model's own tests: expected results from spec/95_test_vectors.md (or from the rule named), each about
one operation or one step; and, for every statement with hypotheses, a witness that meets them together. -/

namespace Sys2Proof.Tests

open Sys2Proof Sys2Proof.Machine

/-! ### WellFormed -/

/-- 10_state.md R11: a register number is 0 to 31. -/
theorem test_wellFormed_refuses_register_32 :
    (Instr.tlbiRvaae1os 32).wf = false ∧ (Instr.tlbiRvaae1osnxs 32).wf = false
      ∧ (Instr.tlbiRvaae1os 31).wf = true ∧ (Instr.tlbiRvaae1osnxs 31).wf = true := by decide

/-! ### Decoding: words written out bit by bit from 30_encoding.md R45, R46, R47 -/

theorem test_decode_plain_from_bits :
    decodeWord 0b1101010100_0_01_000_1000_0101_011_00011#32 = .ok (.tlbiRvaae1os 3)
      ∧ encode (.tlbiRvaae1os 3) = 0b1101010100_0_01_000_1000_0101_011_00011#32 := by decide

theorem test_decode_nxs_from_bits :
    decodeWord 0b1101010100_0_01_000_1001_0101_011_11111#32 = .ok (.tlbiRvaae1osnxs 31)
      ∧ encode (.tlbiRvaae1osnxs 31) = 0b1101010100_0_01_000_1001_0101_011_11111#32 := by decide

/-- 30_encoding.md R59: one field changed at a time. -/
theorem test_decode_neighbours_refused :
    decodeWord 0b1101010101_0_01_000_1000_0101_011_00000#32 = .error (.notInThisSpec 0xD5488560)
      ∧ decodeWord 0b1101010100_0_00_000_1000_0101_011_00000#32 = .error (.notInThisSpec 0xD5008560)
      ∧ decodeWord 0b1101010100_0_01_100_1000_0101_011_00000#32 = .error (.notInThisSpec 0xD50C8560)
      ∧ decodeWord 0b1101010100_0_01_000_1010_0101_011_00000#32 = .error (.notInThisSpec 0xD508A560)
      ∧ decodeWord 0b1101010100_0_01_000_1000_0001_011_00000#32 = .error (.notInThisSpec 0xD5088160) := by decide

theorem test_decodeTableWord :
    decodeTableWord 32 0xD5088560 = some (.tlbiRvaae1os 0)
      ∧ decodeTableWord 32 0xD5089560 = some (.tlbiRvaae1osnxs 0) ∧ decodeTableWord 32 0 = none := by decide

/-! ### States the tests stand on: the "unless stated" state of 95_test_vectors.md section 5 -/

/-- V1 of 95_test_vectors.md section 3. -/
def v1 : Word := 0x0000400000040000

/-- V7: 4K, TTL 10, level 2 aligned. -/
def v7 : Word := 0x0000404000040200

/-- The configuration of section 5, `TG_RESERVED = refuse` as section 7 has it. -/
def cfg5 : Config := { configAtReset with tgReserved := .refuse }

/-- The PE of section 5 at a level: `SCR_EL3.{NS, FGTEn, HXEn} = 1`, `CurrentVMID = 5`, `x[0]` = V1. -/
def pe5 (el : EL) : PE :=
  { PE.reset with
    x := PE.reset.x.set 0 v1
    pstate := { el := el, intMasked := false }
    scrEl3 := { ns := true, nse := false, eel2 := false, fgtEn := true, hxEn := true }
    vmid := 5 }

def at5 (el : EL) : State := { State.reset with cfg := cfg5, pe := pe5 el }

/-- The same with `HCR_EL2.{E2H, TGE, TTLB, TTLBOS}` and `HFGITR_EL2.TLBIRVAAE1OS` given. -/
def at5With (el : EL) (e2h tge ttlb ttlbos fgt : Bool) : State :=
  { at5 el with
    pe := { pe5 el with
      hcrEl2 := { e2h := e2h, tge := tge, ttlb := ttlb, ttlbos := ttlbos }
      hfgitrEl2 := { tlbirvaae1os := fgt } } }

/-- What an instruction did: an exception recorded and nothing issued, or an operation issued with its regime, VMID,
attribute and guarantee and no exception, or neither of these. -/
inductive Shown where
  | raised (o : ExcOutcome)
  | issued (regime : Regime) (vmid : Option Vmid) (attr : TlbiAttr) (guaranteed : Bool)
  | other
deriving DecidableEq, Repr

/-- What an outcome shows. -/
def shows (o : Host.Outcome State Fault Refusal) : Shown :=
  match o with
  | .next s =>
    match s.pe.mark, s.pending.getLast? with
    | none, some op => .issued op.regime op.vmid op.attr op.guaranteed
    | some x, none => .raised x
    | _, _ => .other
  | .fault _ => .other
  | .refused _ => .other

/-- A1 to A6, A17 to A20 of 95_test_vectors.md section 5, the plain variant. -/
theorem test_plain_access_checks :
    shows (exec (.tlbiRvaae1os 0) (at5 .el0)) = .raised (.undefined 0)
    ∧ shows (exec (.tlbiRvaae1os 0) (at5 .el1)) = .issued .el10 (some 5) .allAttr true
    ∧ shows (exec (.tlbiRvaae1os 0) (at5With .el1 false false true false false))
        = .raised (.systemAccessTrap .el2 0x18 0 0xD5088560)
    ∧ shows (exec (.tlbiRvaae1os 0) (at5With .el1 false false false true false))
        = .raised (.systemAccessTrap .el2 0x18 0 0xD5088560)
    ∧ shows (exec (.tlbiRvaae1os 0) (at5With .el1 false false false false true))
        = .raised (.systemAccessTrap .el2 0x18 0 0xD5088560)
    ∧ shows (exec (.tlbiRvaae1os 0) (at5With .el2 true true false false false))
        = .issued .el20 none .allAttr true
    ∧ shows (exec (.tlbiRvaae1os 0) (at5With .el2 true false true true true))
        = .issued .el10 (some 5) .allAttr true := by decide

/-- A5 with `HCRX_EL2.FGTnXS == 1` (A6), without FEAT_HCX (A8), with `HXEn == 0` (A7), A16 and A23, the nXS variant. -/
theorem test_nxs_access_checks :
    (let s := at5With .el1 false false false false true;
      let s6 : State := { s with pe := { s.pe with hcrxEl2 := { fnXs := false, fgtNxs := true } } };
      shows (exec (.tlbiRvaae1osnxs 0) s) = .raised (.systemAccessTrap .el2 0x18 0 0xD5089560)
      ∧ shows (exec (.tlbiRvaae1osnxs 0) s6) = .issued .el10 (some 5) .excludeXs true
      ∧ shows (exec (.tlbiRvaae1osnxs 0) { s with cfg := { cfg5 with featHcx := false } })
          = .issued .el10 (some 5) .excludeXs true
      ∧ shows (exec (.tlbiRvaae1osnxs 0) { s6 with pe := { s6.pe with scrEl3 := { s6.pe.scrEl3 with hxEn := false } } })
          = .raised (.systemAccessTrap .el2 0x18 0 0xD5089560)
      ∧ shows (exec (.tlbiRvaae1osnxs 0)
            { at5With .el1 false false true false false with cfg := { cfg5 with featXs := false } })
          = .raised (.undefined 0)
      ∧ shows (exec (.tlbiRvaae1osnxs 0)
            { at5With .el3 true true false false false with pe := { (at5With .el3 true true false false false).pe with
              scrEl3 := { ns := false, nse := false, eel2 := false, fgtEn := false, hxEn := false } } })
          = .issued .el20 none .excludeXs false) := by decide

/-- A13 to A15: `HCRX_EL2.FnXS` turns the plain variant into its nXS twin at EL1. -/
theorem test_plain_fnxs :
    (let s : State := { at5 .el1 with pe := { pe5 .el1 with hcrxEl2 := { fnXs := true, fgtNxs := false } } };
      shows (exec (.tlbiRvaae1os 0) s) = .issued .el10 (some 5) .excludeXs true
      ∧ shows (exec (.tlbiRvaae1os 0) { s with cfg := { cfg5 with featXs := false } })
          = .issued .el10 (some 5) .allAttr true
      ∧ shows (exec (.tlbiRvaae1os 0) { s with pe := { s.pe with scrEl3 := { s.pe.scrEl3 with hxEn := false } } })
          = .issued .el10 (some 5) .allAttr true) := by decide

/-! ### Operand vectors of 95_test_vectors.md section 3 -/

def cfgNoLpa2 : Config := { cfg5 with featLpa2 := false }

/-- What a vector row gives: BaseADDR, RangeLen, and whether the operation guarantees. -/
def row (cfg : Config) (ds : Bool) (v : Word) : Option (Nat × Nat) × Bool :=
  ((rangeOf cfg ds (decodeXt v)).map fun r => (r.base.toNat, r.len), guaranteedOf cfg ds true (decodeXt v))

/-- V2, V3, V4, V5, V6, V8, V10, V12. -/
theorem test_operands_without_lpa2 :
    row cfg5 false 0x00004F8000040000 = (some (0x40000000, 0x40000), true)
    ∧ row cfg5 false 0x0000506000012345 = (some (0x12345000, 0x40000), true)
    ∧ row cfg5 false 0x0000818000008000 = (some (0x20000000, 0x20000), true)
    ∧ row cfg5 false 0x0000C80000000001 = (some (0x10000, 0x220000), true)
    ∧ row cfg5 false 0x0000FF8000000000 = (some (0, 0x2000000000), true)
    ∧ row cfg5 false 0x0000404000040201 = (some (0x40201000, 0x2000), false)
    ∧ row cfg5 false 0x000090C000000801 = (some (0x2004000, 0x200000), false)
    ∧ row cfg5 false 0x0000C04000003000 = (some (0x30000000, 0x20000), false) := by decide

/-- V7, V9, V11, V13, V14, V15, V19 to V22. -/
theorem test_operands_alignment_and_reserved :
    row cfg5 false v7 = (some (0x40200000, 0x2000), true)
    ∧ row cfg5 false 0x000090C000000800 = (some (0x2000000, 0x200000), true)
    ∧ row cfg5 false 0x0000C04000002000 = (some (0x20000000, 0x20000), true)
    ∧ row cfg5 true 0x0000400000004000 = (some (0x40000000, 0x2000), true)
    ∧ row cfg5 true 0x0000404000000020 = (some (0x200000, 0x2000), true)
    ∧ row cfg5 true 0x0000404000000021 = (some (0x210000, 0x2000), false)
    ∧ row cfg5 false 0 = (none, false)
    ∧ row cfgNoLpa2 false 0x0000802000010000 = (some (0x40000000, 0x8000), false)
    ∧ row cfg5 false 0x000063A000040000 = (some (0x40000000, 0x4000000), true)
    ∧ row cfg5 false 0x000063A000040001 = (some (0x40001000, 0x4000000), false) := by decide

/-- V16, V17, V18, V23: the bits above the field. -/
theorem test_operands_upper_bits :
    row { cfg5 with baseAddrUpper := .zero } false 0x0000401000040000 = (some (0x0001000040000000, 0x2000), true)
    ∧ row cfg5 false 0x0000401000040000 = (some (0xFFFF000040000000, 0x2000), true)
    ∧ row cfg5 false 0xFFFF400000040000 = (some (0x40000000, 0x2000), true)
    ∧ row cfg5 false 0x0000FF9FFFFFFFFF = (some (0xFFFFFFFFFFFF0000, 0x2000000000), true) := by decide

/-! ### Required entries of 95_test_vectors.md section 4 -/

/-- The default entry of section 4 with its VA interval. -/
def entry (lo hi : Word) : TLBEntry :=
  { stage1 := true, width := .d64, level := 3, leaf := true, granule := .g4K, regime := .el10, security := .nonSecure
    vmid := some 5, asid := 7, isGlobal := false, vaLo := lo, vaHi := hi, payload := 0 }

def e1 : TLBEntry := entry 0x40000000 0x40000FFF
def e5 : TLBEntry := { entry 0x40000000 0x401FFFFF with level := 2 }

/-- Operation A (V1) and operation B (V7) of section 4. -/
def opOf (xt : Word) : TlbiOp := buildOp (at5 .el1) .nonSecure .el10 (some 5) .allAttr true xt

def req (xt : Word) (e : TLBEntry) : Bool := required (at5 .el1) (opOf xt) (.pe 0) e

/-- E1 to E12. -/
theorem test_required_operation_A :
    [e1, entry 0x40002000 0x40002FFF, { entry 0x40001000 0x40001FFF with vmid := some 6 },
      { entry 0x40001000 0x40001FFF with asid := 9, isGlobal := true }, e5,
      { entry 0x40000000 0x40003FFF with granule := .g16K }, { e1 with regime := .el20 },
      { e1 with security := .secure }, { e1 with stage1 := false }, { e1 with width := .d128 }, { e5 with leaf := false },
      entry 0x3FFFF000 0x3FFFFFFF].map (req v1)
    = [true, false, false, true, true, false, false, false, false, true, true, false] := by decide

/-- E13 to E18. -/
theorem test_required_operation_B :
    [{ entry 0x40200000 0x403FFFFF with level := 2 }, entry 0x40200000 0x40200FFF,
      { entry 0x40000000 0x7FFFFFFF with level := 1, leaf := false },
      { entry 0x40200000 0x403FFFFF with level := 2, leaf := false }, { entry 0x40000000 0x7FFFFFFF with level := 1 },
      { entry 0x40200000 0x403FFFFF with level := 2, width := .d128 }].map (req v7)
    = [true, false, true, false, false, false] := by decide

/-! ### Completion, remote PEs, System MMUs: 95_test_vectors.md section 6 -/

/-- Operation A issued with E1 and E5 in the issuer's TLB. -/
def issuedA (attr : TlbiAttr) (todo : List Cached) : TlbiOp :=
  { opOf v1 with attr := attr, inScope := [(.pe 0, e1), (.pe 0, e5)], todo := todo }

def withAccesses (c1 c2 : Bool) : State :=
  { at5 .el1 with
    accesses := [{ agent := .pe 0, used := [e1], xs := false, complete := c1 },
      { agent := .pe 0, used := [e1], xs := true, complete := c2 }] }

theorem test_completion_table :
    (withAccesses true true).complete (issuedA .allAttr [(.pe 0, e5)]) = false
    ∧ (withAccesses false false).complete (issuedA .excludeXs []) = false
    ∧ (withAccesses true false).complete (issuedA .allAttr []) = false
    ∧ (withAccesses true false).complete (issuedA .excludeXs []) = true
    ∧ (withAccesses true true).complete (issuedA .allAttr []) = true := by decide

/-- P0 (`EEL2` = a) with P1 (`EEL2` = b) and System MMU 0 in its domain, both in EL1, Secure state. -/
def secureDomain (a b : Bool) : State :=
  let pe (x : Bool) : PE := { pe5 .el1 with scrEl3 := { ns := false, nse := false, eel2 := x, fgtEn := true, hxEn := true } }
  { at5 .el1 with
    cfg := { cfg5 with agents := [.pe 0, .pe 1, .smmu 0], osh := [(0, .pe 1), (0, .smmu 0)] }
    pe := pe a
    others := [(1, pe b)] }

def secureOp (s : State) : TlbiOp := buildOp s .secure .el10 s.vmidArg .allAttr true v1

/-- Section 6, "Remote PEs" and the System MMU sentence. -/
theorem test_remote_agents :
    (let e := { e1 with security := .secure };
      (required (secureDomain false false) (secureOp (secureDomain false false)) (.pe 1) e = true)
      ∧ (required (secureDomain true true) (secureOp (secureDomain true true)) (.pe 1) e = true)
      ∧ (required (secureDomain true false) (secureOp (secureDomain true false)) (.pe 1) e = false)
      ∧ (required (secureDomain false true) (secureOp (secureDomain false true)) (.pe 1) e = false)
      ∧ (required (secureDomain false false) (secureOp (secureDomain false false)) (.smmu 0) { e with vmid := some 0 } = true)
      ∧ (required (secureDomain false false) (secureOp (secureDomain false false)) (.smmu 0) e = false)
      ∧ required (secureDomain true true) (secureOp (secureDomain true true)) (.smmu 0) { e with vmid := some 0 } = false) := by
  decide

/-! ### Witnesses: a state and operands that meet each statement's hypotheses -/

/-- A state with the word of `TLBI RVAAE1OS, X0` at pc. -/
def placed : State := (at5 .el1).withFetchWord 32 0xD5088560

theorem witness_PlainWordMatchAndMask : (31 : Nat) < 32 ∧ decodeWord 0xD508857F = .ok (.tlbiRvaae1os 31) := by decide

theorem witness_NxsWordMatchAndMask : (31 : Nat) < 32 ∧ decodeWord 0xD508957F = .ok (.tlbiRvaae1osnxs 31) := by decide

theorem witness_DecodeOfEncode : (Instr.tlbiRvaae1os 31).wf = true := by decide

theorem witness_EncodeOfDecode : decodeWord 0xD5089562 = .ok (.tlbiRvaae1osnxs 2) := by decide

/-- A state with a word that is none of the two at pc. -/
def placedOther : State := (at5 .el1).withFetchWord 32 0xD5088540

theorem witness_EveryOtherWordRefused :
    (0xD5088540#32 &&& 0xFFFFFFE0#32 ≠ 0xD5088560#32 ∧ 0xD5088540#32 &&& 0xFFFFFFE0#32 ≠ 0xD5089560#32
      ∧ placedOther.pe.mark = none ∧ endPcOf placedOther.cfg placedOther.self ≠ placedOther.pe.pc
      ∧ pcAligned placedOther.pe.pc = true ∧ placedOther.fetchBytes = some (bytesOfWord 0xD5088540))
    ∧ placedOther.givesTurn placedOther ∧ { placedOther with schedule := [.run 0] }.givesTurn placedOther :=
  ⟨by decide, .inl ⟨rfl, rfl, rfl⟩, .inr ⟨0, [], rfl, rfl⟩⟩

theorem witness_StepRunsDecodedInstruction :
    (placed.pe.mark = none ∧ endPcOf placed.cfg placed.self ≠ placed.pe.pc ∧ pcAligned placed.pe.pc = true
    ∧ placed.mem.read placed.pe.pc.toNat = some 0x60 ∧ placed.mem.read (placed.pe.pc.toNat + 1) = some 0x85
    ∧ placed.mem.read (placed.pe.pc.toNat + 2) = some 0x08 ∧ placed.mem.read (placed.pe.pc.toNat + 3) = some 0xD5
    ∧ decodeWord (0xD5#8 ++ 0x08#8 ++ 0x85#8 ++ 0x60#8) = .ok (.tlbiRvaae1os 0)
    ∧ placed.mustWait (.tlbiRvaae1os 0) = false) ∧ placed.givesTurn placed :=
  ⟨by decide, .inl ⟨rfl, rfl, rfl⟩⟩

/-- The turn of another PE: PE 1 was executing, and `run 0` is scheduled. -/
theorem witness_StepRunsDecodedInstruction_run :
    { placed with self := 1, others := [(0, placed.pe)], schedule := [.run 0] }.givesTurn
      { placed with others := [(1, placed.pe)] } :=
  .inr ⟨0, [], rfl, rfl⟩

/-- One state for each clause, each at its turn: a recorded exception, a finished PE, a misaligned pc, no word at pc. -/
theorem witness_TurnsThatExecuteNothing :
    (let a : State := { at5 .el1 with pe := { pe5 .el1 with mark := some (.undefined 0) } };
      let b : State := { at5 .el1 with cfg := { cfg5 with endPc := [(0, 0)] } };
      let c : State := { at5 .el1 with pe := { pe5 .el1 with pc := 0xFFFFFFFFFFFFFFFE } };
      let d : State := at5 .el1;
      (a.givesTurn a ∧ b.givesTurn b ∧ c.givesTurn c ∧ d.givesTurn d) ∧ a.pe.mark = some (.undefined 0)
      ∧ (b.pe.mark = none ∧ endPcOf b.cfg b.self = b.pe.pc)
      ∧ (c.pe.mark = none ∧ endPcOf c.cfg c.self ≠ c.pe.pc ∧ ¬ 4 ∣ c.pe.pc.toNat)
      ∧ (d.pe.mark = none ∧ endPcOf d.cfg d.self ≠ d.pe.pc ∧ 4 ∣ d.pe.pc.toNat ∧ d.fetchBytes = none)) :=
  ⟨⟨.inl ⟨rfl, rfl, rfl⟩, .inl ⟨rfl, rfl, rfl⟩, .inl ⟨rfl, rfl, rfl⟩, .inl ⟨rfl, rfl, rfl⟩⟩, by decide, by decide,
    by decide, by decide⟩

def observing : State :=
  { placed with
    cfg := { placed.cfg with completionObserver := [.tlbiRvaae1os 0] }
    tlb := [(.pe 0, e1)]
    pending := [issuedA .allAttr [(.pe 0, e1)]] }

theorem witness_CompletionObserverWaits :
    (observing.pe.mark = none
    ∧ endPcOf observing.cfg observing.self ≠ observing.pe.pc ∧ pcAligned observing.pe.pc = true
    ∧ observing.fetchBytes = some [0x60, 0x85, 0x08, 0xD5]
    ∧ decodeBytes [0x60, 0x85, 0x08, 0xD5] = .ok (.tlbiRvaae1os 0, [])
    ∧ .tlbiRvaae1os 0 ∈ observing.cfg.completionObserver
    ∧ issuedA .allAttr [(.pe 0, e1)] ∈ observing.pending ∧ (issuedA .allAttr [(.pe 0, e1)]).issuer = observing.self
    ∧ observing.complete (issuedA .allAttr [(.pe 0, e1)]) = false)
    ∧ { observing with schedule := [.run 0] }.givesTurn observing :=
  ⟨by decide, .inr ⟨0, [], rfl, rfl⟩⟩

/-- At the top of the address space, with END_PC at the word. -/
theorem witness_PlacedWordRunsNext :
    (let s : State := { at5 .el1 with
        cfg := { cfg5 with endPc := [(0, 0xFFFFFFFFFFFFFFFC)] }
        pe := { pe5 .el1 with pc := 0xFFFFFFFFFFFFFFFC } };
      (Instr.tlbiRvaae1osnxs 31).wf = true ∧ 4 ∣ s.pe.pc.toNat ∧ s.cfg.completionObserver = []) := by decide

theorem witness_BaseAddrWithLpa2 : cfg5.featLpa2 = true ∧ v1.extractLsb' 46 2 ≠ 0b00#2 := by decide

/-- V17's operand has the field's top bit set; the second configuration leaves the parameter open. -/
theorem witness_BaseAddrPlacement :
    granuleOfTg ((0x0000401000040000 : Word).extractLsb' 46 2) = some .g4K
    ∧ { cfg5 with baseAddrUpper := .leftOpen }.baseAddrUpper = .leftOpen
    ∧ ((0x0000401000040000 : Word).extractLsb' 0 37).msb = true := by decide

/-- V16 with the upper bits zero and V23 with them copied. -/
theorem witness_RangeArithmeticLaws :
    (∃ r, rangeOf { cfg5 with baseAddrUpper := .zero } false (decodeXt 0x0000401000040000) = some r)
    ∧ { cfg5 with baseAddrUpper := .zero }.baseAddrUpper = .zero
    ∧ (∃ r, rangeOf cfg5 false (decodeXt 0x0000FF9FFFFFFFFF) = some r) ∧ cfg5.baseAddrUpper = .sign
    ∧ ((0x0000FF9FFFFFFFFF : Word).extractLsb' 0 37).msb = true ∧ e1.vaHi.toNat < 2 ^ 63 :=
  ⟨⟨_, rfl⟩, rfl, ⟨_, rfl⟩, rfl, by decide, by decide⟩

theorem witness_UnpredictableIffNotBlockAligned :
    granuleOfTg (v7.extractLsb' 46 2) = some .g4K ∧ ∃ r, rangeOf cfg5 false (decodeXt v7) = some r :=
  ⟨by decide, _, rfl⟩

/-- V20 under both settings, and an operand that is not the reserved case. -/
theorem witness_ReservedTtlAt16K :
    (let v : Word := 0x0000802000010000;
      cfgNoLpa2.featLpa2 = false ∧ v.extractLsb' 46 2 = 0b10#2 ∧ v.extractLsb' 37 2 = 0b01#2
      ∧ cfgNoLpa2.ttl01At16K = .noGuarantee ∧ { cfgNoLpa2 with ttl01At16K := .treatAs00 }.ttl01At16K = .treatAs00
      ∧ ¬ (cfg5.featLpa2 = false ∧ v.extractLsb' 46 2 = 0b10#2 ∧ v.extractLsb' 37 2 = 0b01#2)) := by decide

/-- V1 and V18. -/
theorem witness_Res0BitsIgnored : v1.extractLsb' 0 48 = (0xFFFF400000040000 : Word).extractLsb' 0 48 := by decide

/-- 10_state.md R15: with `HCR_EL2.TTLB` 1 in the register, what is read with EL2 implemented and without. -/
theorem witness_ControlPredicates :
    (let p : PE := { pe5 .el1 with hcrEl2 := { (pe5 .el1).hcrEl2 with ttlb := true } };
      let s : State := { at5 .el1 with pe := p };
      let s' : State := { s with cfg := { cfg5 with haveEl2 := false } };
      s.cfg.haveEl2 = true ∧ s.hcr.ttlb = true ∧ s'.cfg.haveEl2 = false ∧ s'.hcr.ttlb = false) := by decide

/-- One state for each clause: no EL3; EL3 without FEAT_RME, `NS` 0 and 1; FEAT_RME with the four values. -/
theorem witness_SecurityStateOfBits :
    (let no3 : Config := { cfg5 with haveEl3 := false };
      let noRme : Config := { cfg5 with featRme := false };
      no3.haveEl3 = false ∧ (noRme.haveEl3 = true ∧ noRme.featRme = false) ∧ (cfg5.haveEl3 = true ∧ cfg5.featRme = true)
      ∧ (pe5 .el1).scrEl3.ns = true ∧ (pe5 .el1).scrEl3.nse = false
      ∧ { (pe5 .el1).scrEl3 with nse := true, ns := false } = { nse := true, ns := false, eel2 := false, fgtEn := true, hxEn := true }) := by
  decide

theorem witness_PlainCompletesAtEl1 :
    (let s := at5 .el1;
      s.cfg.featTlbirange = true ∧ s.cfg.featTlbios = true ∧ s.pe.pstate.el = .el1 ∧ s.trapT1 = false ∧ s.trapT2 = false
      ∧ s.trapT3 = false ∧ s.secState = some .nonSecure ∧ s.operandAccepted (s.readX 0)) := by decide

/-- Both levels, each with `{E2H, TGE}` = `{1, 1}` and `{0, 0}`. -/
theorem witness_PlainCompletesAtEl2AndEl3 :
    ∀ s ∈ [at5 .el2, at5 .el3, at5With .el2 true true false false false, at5With .el3 true true false false false],
      s.cfg.featTlbirange = true ∧ s.cfg.featTlbios = true ∧ (s.pe.pstate.el = .el2 ∨ s.pe.pstate.el = .el3)
      ∧ s.secState = some .nonSecure ∧ s.operandAccepted (s.readX 0) := by decide

theorem witness_NxsCompletesAtEl1 :
    (let s := at5 .el1;
      s.cfg.featTlbirange = true ∧ s.cfg.featTlbios = true ∧ s.cfg.featXs = true ∧ s.pe.pstate.el = .el1
      ∧ s.trapT1 = false ∧ s.trapT2 = false ∧ s.trapT3n = false ∧ s.secState = some .nonSecure
      ∧ s.operandAccepted (s.readX 0)) := by decide

theorem witness_NxsCompletesAtEl2AndEl3 :
    ∀ s ∈ [at5 .el2, at5 .el3, at5With .el2 true true false false false, at5With .el3 true true false false false],
      s.cfg.featTlbirange = true ∧ s.cfg.featTlbios = true ∧ s.cfg.featXs = true
      ∧ (s.pe.pstate.el = .el2 ∨ s.pe.pstate.el = .el3) ∧ s.secState = some .nonSecure
      ∧ s.operandAccepted (s.readX 0) := by decide

/-- A configuration for each absent feature, and EL0. -/
theorem witness_UndefinedCauses :
    { cfg5 with featTlbirange := false }.featTlbirange = false ∧ { cfg5 with featTlbios := false }.featTlbios = false
    ∧ { cfg5 with featXs := false }.featXs = false ∧ (at5 .el0).pe.pstate.el = .el0 := by decide

theorem witness_NxsUndefinedWithoutFeatXs : { at5 .el1 with cfg := { cfg5 with featXs := false } }.cfg.featXs = false := by
  decide

/-- T1, T2 and T3 each alone, and none of them. -/
theorem witness_PlainTrapsAtEl1 :
    (let t1 := at5With .el1 false false true false false;
      let t2 := at5With .el1 false false false true false;
      let t3 := at5With .el1 false false false false true;
      (31 : Nat) < 32 ∧ t1.cfg.featTlbirange = true ∧ t1.cfg.featTlbios = true ∧ t1.pe.pstate.el = .el1
      ∧ t1.el2Enabled = true ∧ t1.hcr.ttlb = true ∧ t2.hcr.ttlbos = true
      ∧ (t3.el2Enabled = true ∧ t3.cfg.featFgt = true ∧ t3.pe.scrEl3.fgtEn = true ∧ t3.pe.hfgitrEl2.tlbirvaae1os = true)
      ∧ ((at5 .el1).hcr.ttlb = false ∧ (at5 .el1).hcr.ttlbos = false ∧ (at5 .el1).pe.hfgitrEl2.tlbirvaae1os = false)) := by
  decide

/-- T3n, and the exemption by `HCRX_EL2.FGTnXS`. -/
theorem witness_NxsTrapsAtEl1 :
    (let t3 := at5With .el1 false false false false true;
      let exempt : State := { t3 with pe := { t3.pe with hcrxEl2 := { fnXs := false, fgtNxs := true } } };
      (31 : Nat) < 32 ∧ t3.cfg.featTlbirange = true ∧ t3.cfg.featTlbios = true ∧ t3.cfg.featXs = true
      ∧ t3.pe.pstate.el = .el1 ∧ t3.el2Enabled = true ∧ t3.cfg.featFgt = true ∧ t3.pe.scrEl3.fgtEn = true
      ∧ t3.cfg.featHcx = true ∧ t3.pe.hcrxEl2.fgtNxs = false ∧ t3.pe.hfgitrEl2.tlbirvaae1os = true
      ∧ exempt.hcrxEnabled = true ∧ exempt.hcr.ttlb = false ∧ exempt.hcr.ttlbos = false
      ∧ exempt.pe.hcrxEl2.fgtNxs = true) := by decide

/-- The reserved Security state at EL3 and, untrapped with EL2 enabled, at EL1; the reserved TG (register 31) at EL1
untrapped with EL2 enabled, and at EL2. -/
theorem witness_ReservedOperandsRefused :
    (let scr : ScrEl3 := { ns := false, nse := true, eel2 := true, fgtEn := false, hxEn := false };
      let r3 : State := { at5 .el3 with pe := { pe5 .el3 with scrEl3 := scr } };
      let r1 : State := { at5 .el1 with pe := { pe5 .el1 with scrEl3 := scr } };
      let n : State := at5 .el1;
      (r3.secState = none ∧ r3.pe.pstate.el = .el3 ∧ r3.cfg.featTlbirange = true ∧ r3.cfg.featTlbios = true
        ∧ r3.cfg.featXs = true)
      ∧ (r1.secState = none ∧ r1.pe.pstate.el = .el1 ∧ r1.el2Enabled = true ∧ r1.trapT1 = false ∧ r1.trapT2 = false
        ∧ r1.trapT3 = false ∧ r1.trapT3n = false)
      ∧ (n.pe.pstate.el = .el1 ∧ n.el2Enabled = true ∧ n.trapT1 = false ∧ n.trapT2 = false ∧ n.trapT3 = false
        ∧ n.trapT3n = false ∧ n.secState ≠ none ∧ (n.readX 31).extractLsb' 46 2 = 0b00#2 ∧ n.cfg.tgReserved = .refuse)
      ∧ (at5 .el2).pe.pstate.el = .el2 ∧ (at5 .el2).secState ≠ none
      ∧ ((at5 .el2).readX 31).extractLsb' 46 2 = 0b00#2) := by decide

theorem witness_El3WithEl2DisabledGuaranteesNothing :
    (let s : State := { at5 .el3 with pe := { pe5 .el3 with
        hcrEl2 := { e2h := true, tge := true, ttlb := false, ttlbos := false }
        scrEl3 := { ns := false, nse := false, eel2 := false, fgtEn := false, hxEn := false } } };
      s.cfg.featTlbirange = true ∧ s.cfg.featTlbios = true ∧ s.cfg.featXs = true ∧ s.pe.pstate.el = .el3
      ∧ s.cfg.haveEl2 = true ∧ s.pe.hcrEl2.e2h = true ∧ s.pe.hcrEl2.tge = true ∧ s.el2Enabled = false
      ∧ s.secState = some .secure ∧ s.operandAccepted (s.readX 0)) := by decide

theorem witness_BothVariantsSameInvalidation :
    ∃ op op', exec (.tlbiRvaae1os 0) (at5 .el1) = .next ((at5 .el1).afterIssue op)
      ∧ exec (.tlbiRvaae1osnxs 0) (at5 .el1) = .next ((at5 .el1).afterIssue op') := ⟨_, _, rfl, rfl⟩

/-- Undefined at EL0, a trap at EL1, an operation at EL2. -/
theorem witness_OutcomesByExceptionLevel :
    (∃ u, exec (.tlbiRvaae1os 0) (at5 .el0) = .next u) ∧ (at5 .el0).pe.pstate.el = .el0
    ∧ (∃ u, exec (.tlbiRvaae1os 0) (at5With .el1 false false true false false) = .next u
        ∧ u.pending = [] ∧ u.pe.mark ≠ none)
    ∧ ∃ u, exec (.tlbiRvaae1osnxs 0) (at5 .el2) = .next u ∧ u.pending.length = 1 :=
  ⟨⟨_, rfl⟩, rfl, ⟨_, rfl, by decide, by decide⟩, ⟨_, rfl, by decide⟩⟩

theorem witness_InstructionFrame :
    (∃ u, exec (.tlbiRvaae1os 0) (at5 .el1) = .next u) ∧ (∃ u, exec (.tlbiRvaae1osnxs 0) (at5 .el0) = .next u)
      ∧ (at5 .el0).cfg.trapEntry ≠ .leftOpen :=
  ⟨⟨_, rfl⟩, ⟨_, rfl⟩, by decide⟩

theorem witness_FaultMarkEntry : (at5 .el1).cfg.trapEntry = .faultMark := by decide

/-- PE 0 has a mark; the schedule fills its TLB. -/
theorem witness_FaultMarkNeverCleared :
    (let s : State := { at5 .el1 with
        pe := { pe5 .el1 with mark := some (.undefined 0) }, schedule := [.fill (.pe 0) e1] };
      s.pesOk ∧ s.peOf 0 = some s.pe ∧ s.pe.mark = some (.undefined 0) ∧ ∃ u, step s = .next u) :=
  ⟨by decide, rfl, rfl, _, rfl⟩

/-- At EL0 without TGE, at EL0 with TGE, and above EL0; both outcomes have the form the statement asks. -/
theorem witness_ArchitecturalEntry :
    (let a (s : State) : State := { s with cfg := { s.cfg with trapEntry := .architectural } };
      (a (at5 .el0)).cfg.trapEntry = .architectural ∧ (a (at5 .el0)).pe.pstate.el = .el0
      ∧ (a (at5 .el0)).hcr.tge = false
      ∧ (a (at5With .el0 false true false false false)).el2Enabled = true
      ∧ (a (at5With .el0 false true false false false)).hcr.tge = true
      ∧ (a (at5 .el1)).pe.pstate.el ≠ .el0 ∧ (a (at5 .el2)).pe.pstate.el ≠ .el0 ∧ (a (at5 .el3)).pe.pstate.el ≠ .el0
      ∧ (ExcOutcome.undefined 0 = .undefined (at5 .el1).pe.pc)
      ∧ ExcOutcome.systemAccessTrap .el2 0x18 0 0xD5088560
          = .systemAccessTrap .el2 0x18 (at5 .el1).pe.pc (encode (.tlbiRvaae1os 0))) := by decide

theorem witness_TrapSyndromeFields : (31 : Nat) < 32 := by decide

theorem witness_LevelMatchOf64BitEntries : e1.width = .d64 := by decide

theorem witness_LevelMatchOf128BitEntries :
    { e1 with width := .d128 }.width = .d128 ∧ unpredictable 0b10 .g4K 0x40201000 = true := by decide

theorem witness_OverlapIsSharedAddress : e1.vaLo.toNat ≤ e1.vaHi.toNat ∧ 0 < (AddrRange.mk 0 1).len := by decide

/-- The issuer itself, a remote PE, an operation that is not Secure EL1&0, and a system without EL3. -/
theorem witness_RemotePeNeedsEqualEel2 :
    (let s := secureDomain true false;
      s.peOf 0 = some s.pe ∧ (s.peOf 1).isSome = true ∧ (secureOp s).issuer = 0 ∧ (1 : Nat) ≠ (secureOp s).issuer
      ∧ (secureOp s).security = .secure ∧ (secureOp s).regime = .el10 ∧ s.cfg.haveEl3 = true
      ∧ (opOf v1).security ≠ .secure ∧ { cfg5 with haveEl3 := false }.haveEl3 = false) := by decide

theorem witness_SystemMmuOnlySecureVmidZero :
    (secureDomain false false).peOf (secureOp (secureDomain false false)).issuer = some (secureDomain false false).pe := by
  decide

theorem witness_CompletionOfAllAttr : (issuedA .allAttr []).attr = .allAttr := by decide

theorem witness_CompletionOfExcludeXs :
    (issuedA .excludeXs []).attr = .excludeXs
    ∧ (withAccesses true true).complete { issuedA .excludeXs [] with attr := .allAttr } = true := by decide

/-- Operation A pending with E1 and E5 still to be removed. -/
def removing (ms : List Move) : State :=
  { at5 .el1 with
    tlb := [(.pe 0, e1), (.pe 0, e5)]
    pending := [issuedA .allAttr [(.pe 0, e1), (.pe 0, e5)]]
    schedule := ms }

theorem witness_RemovalStep :
    (let p : Cached := (.pe 0, e1);
      let op := issuedA .allAttr [(.pe 0, e1), (.pe 0, e5)];
      (removing [.remove 0 p.1 p.2]).schedule = .remove 0 p.1 p.2 :: []
      ∧ (removing [.remove 0 p.1 p.2]).pending[0]? = some op ∧ p ∈ op.todo) := by decide

theorem witness_AnyEntryMayBeDropped :
    (removing [.discard (.pe 0) e5]).schedule = .discard (.pe 0) e5 :: [] := by decide

theorem witness_RemovalAgentEmptiesTodo :
    (let op := issuedA .allAttr [(.pe 0, e1), (.pe 0, e5)];
      let s := removing (removalMoves 0 op.todo);
      s.pending[0]? = some op ∧ s.schedule = removalMoves 0 op.todo ++ [] ∧ op.todo.length = 2
      ∧ (removing []).schedule = []) := by decide

/-- Operation A with one entry to remove, on a finished PE. -/
def draining : State :=
  { at5 .el1 with
    cfg := { cfg5 with endPc := [(0, 0)] }
    tlb := [(.pe 0, e1)]
    pending := [issuedA .allAttr [(.pe 0, e1)]] }

/-- The infinite run from there: the entry is removed, the operation retired, and then nothing happens any more. -/
def drainingRun : Nat → State
  | 0 => draining
  | 1 => { draining with tlb := [], pending := [issuedA .allAttr []] }
  | _ + 2 => { draining with tlb := [], pending := [] }

theorem witness_RemovalAgentEmptiesTodo_run : IsRun drainingRun := by
  intro n
  match n with
  | 0 => rfl
  | 1 => rfl
  | _ + 2 => rfl

/-- One state for each clause: a step, a scheduled retirement, a complete operation with nothing scheduled. -/
theorem witness_OperationsLeaveOnlyComplete :
    (let op := issuedA .allAttr [];
      let s : State := { at5 .el1 with pending := [op], schedule := [.retire 0] };
      let s' : State := { at5 .el1 with pending := [op] };
      (∃ u, step s = .next u) ∧ (s.schedule = .retire 0 :: [] ∧ s.pending[0]? = some op ∧ s.complete op = true)
      ∧ s'.schedule = [] ∧ (∀ op ∈ s'.pending, op.todo = []) ∧ ∃ op ∈ s'.pending, s'.complete op = true) :=
  ⟨⟨_, rfl⟩, by decide, by decide, by decide, by decide⟩

theorem witness_EntriesAddedOnlyByFill :
    (let s : State := { at5 .el1 with schedule := [.fill (.pe 0) e1] };
      ∃ u, step s = .next u ∧ (Agent.pe 0, e1) ∈ u.tlb ∧ (Agent.pe 0, e1) ∉ s.tlb) := ⟨_, rfl, by decide, by decide⟩

theorem witness_NoStepWritesRegistersOrMemory :
    placed.pesOk ∧ (∃ u, step placed = .next u) ∧ placed.peOf 0 = some placed.pe ∧ placed.cfg.trapEntry ≠ .leftOpen :=
  ⟨by decide, ⟨_, rfl⟩, rfl, by decide⟩

theorem witness_StepKeepsRemovalTracked :
    (let s := removing [.remove 0 (.pe 0) e1];
      s.removalTracked (.pe 0, e1) ∧ s.nextMoveIsNotFill (.pe 0, e1) ∧ ∃ u, step s = .next u) :=
  ⟨by decide, by decide, _, rfl⟩

/-- After both removals the operation is complete and E1, which it required, is gone. -/
theorem witness_RequiredEntriesGoneAtCompletion :
    (let s := removing [.remove 0 (.pe 0) e1, .remove 0 (.pe 0) e5];
      s.removalTracked (.pe 0, e1) ∧ Move.fill (.pe 0) e1 ∉ s.schedule
      ∧ ∃ u, Host.Core.run Sys2Proof.core 2 s = .next u
        ∧ ∃ op ∈ u.pending, u.complete op = true ∧ (Agent.pe 0, e1) ∈ op.inScope) :=
  ⟨by decide, by decide, _, rfl, issuedA .allAttr [], by decide, by decide, by decide⟩

theorem witness_StepKeepsInvariant :
    placed.Inv ∧ (placed.cfg.trapEntry = .leftOpen → trapEntrySound) ∧ placed.storesOk ∧ ∃ u, step placed = .next u :=
  ⟨by decide, fun h => absurd h (by decide), by decide, _, rfl⟩

/-- A final state, a state with a pending operation, a state with an exception recorded on a PE that is not executing. -/
theorem witness_FinalStatesAreAtRest :
    { at5 .el1 with cfg := { cfg5 with endPc := [(0, 0)] } }.final
    ∧ { at5 .el1 with cfg := { cfg5 with endPc := [(0, 0)] } }.schedule = []
    ∧ (removing []).pending ≠ []
    ∧ ∃ q ∈ { at5 .el1 with others := [(1, { pe5 .el1 with mark := some (.undefined 0) })] }.pes,
        q.2.mark = some (.undefined 0) := by decide

/-- 40_tlbi_rvaae1os.md R81, 70_reset_and_hazards.md R119: with nothing scheduled the removal agent moves first. -/
theorem test_removal_of_its_own_accord :
    step (removing []) = .next { removing [] with
      tlb := [(.pe 0, e5)], pending := [issuedA .allAttr [(.pe 0, e5)]] } := rfl

/-- Placed in a state with removals still to be done, the word is what the very next step runs. -/
theorem test_placed_word_runs_before_removals :
    ∃ u, step ((removing []).withFetchWord 32 0xD5088560) = .next u ∧ u.pe.pc = 4 ∧ u.pending.length = 2 :=
  ⟨_, rfl, by decide, by decide⟩

/-- The host's placement from reset: the very next step runs the instruction (log 36). -/
theorem test_placed_word_runs_from_reset :
    (∃ u, step (State.reset.withFetchWord 32 0xD5088560) = .next u ∧ u.pe.pc = 4 ∧ u.pending.length = 1)
    ∧ ∃ u, step (State.reset.withFetchWord 32 0xD5089560) = .next u ∧ u.pe.pc = 4 ∧ u.pending.length = 1 :=
  ⟨⟨_, rfl, by decide, by decide⟩, ⟨_, rfl, by decide, by decide⟩⟩

end Sys2Proof.Tests
end

section
/-! SUPPORT. The statements of 10_state.md: what every step keeps of the stores and of the PEs, and from it the
invariant. -/

namespace Sys2Proof.Machine

/-! ### What every step keeps -/

/-- A step keeps what taking a move off the schedule, switching the executing PE, an agent's move and an instruction
all keep. -/
theorem step_preserves {P : State → Prop} (hschedule : ∀ s l, P s → P (s.setSchedule l))
    (hswitch : ∀ s u n, s.switchTo n = some u → P s → P u) (hmove : ∀ s m, P s → P (s.agentMove m))
    (hexec : ∀ s u i, exec i s = .next u → P s → P u) {s u : State} (h : step s = .next u) (hs : P s) : P u := by
  rcases step_next_cases h with ⟨s', hturn, hrun⟩ | ⟨n, ms, -, rfl⟩ | ⟨m, ms, -, rfl⟩ | ⟨m, -, -, rfl⟩
  · have hs' : P s' := by
      rcases hturn with ⟨-, -, rfl⟩ | ⟨n, ms, -, hsw⟩
      · exact hs
      · exact hswitch _ _ n hsw (hschedule s ms hs)
    rcases runPe_next_cases hrun with rfl | ⟨i, -, he⟩
    · exact hs'
    · exact hexec _ _ i he hs'
  · exact hschedule s ms hs
  · exact hmove _ m (hschedule s ms hs)
  · exact hmove s m hs

/-! ### The stores: memory, TLBs, pending operations -/

/-- `storesOk` speaks of the configuration, memory, the TLBs and the pending operations only. -/
theorem State.storesOk_congr {s u : State} (hcfg : u.cfg = s.cfg) (hmem : u.mem = s.mem) (htlb : u.tlb = s.tlb)
    (hpending : u.pending = s.pending) (h : s.storesOk) : u.storesOk := by
  simpa only [State.storesOk, State.tlbOk, hcfg, hmem, htlb, hpending] using h

/-- An operation is sound when it is issued (40_tlbi_rvaae1os.md R78, R80). -/
theorem issued_ok (s : State) (op : TlbiOp) : (issued s op).ok s.cfg s.tlb := by
  refine ⟨fun p hp => ⟨hp, (mem_requiredSet.1 hp).1⟩, fun p hp => (mem_requiredSet.1 hp).2.1, fun hg => ?_⟩
  exact requiredSet_of_not_guaranteed hg

/-- A sound operation stays sound while every entry it still has to remove stays in the TLB. -/
theorem TlbiOp.ok_mono {cfg : Config} {tlb tlb' : List Cached} {op : TlbiOp} {l : List Cached} (h : op.ok cfg tlb)
    (hl : ∀ p ∈ l, p ∈ op.todo ∧ (p ∈ tlb → p ∈ tlb')) : TlbiOp.ok cfg tlb' { op with todo := l } := by
  obtain ⟨htodo, hosh, hg⟩ := h
  exact ⟨fun p hp => ⟨(htodo p (hl p hp).1).1, (hl p hp).2 (htodo p (hl p hp).1).2⟩, hosh, hg⟩

theorem State.evict_storesOk {s : State} (p : Cached) (h : s.storesOk) : (s.evict p).storesOk := by
  obtain ⟨hmem, ⟨hnodup, hentry⟩, hops⟩ := h
  refine ⟨hmem, ⟨hnodup.filter _, fun q hq => hentry q (State.mem_evict_tlb.1 hq).1⟩, fun o ho => ?_⟩
  obtain ⟨op, hop, rfl⟩ := State.mem_evict_pending.1 ho
  refine TlbiOp.ok_mono (hops op hop) fun q hq => ?_
  obtain ⟨hq, hne⟩ := List.mem_filter.1 hq
  exact ⟨hq, fun ht => State.mem_evict_tlb.2 ⟨ht, by simpa using hne⟩⟩

theorem State.storesOk_addEntry {s : State} {p : Cached} (hagent : p.1 ∈ s.cfg.agents)
    (hentry : entryOk s.cfg p.2 = true) (hnew : p ∉ s.tlb) (h : s.storesOk) : (s.setTlb (s.tlb ++ [p])).storesOk := by
  obtain ⟨hmem, ⟨hnodup, hentries⟩, hops⟩ := h
  refine ⟨hmem, ⟨by simpa using hnodup.concat hnew, fun q hq => ?_⟩, fun op hop => ?_⟩
  · rcases List.mem_append.1 hq with hq | hq
    · exact hentries q hq
    · rw [List.mem_singleton.1 hq]; exact ⟨hagent, hentry⟩
  · exact TlbiOp.ok_mono (hops op hop) fun q hq => ⟨hq, List.mem_append_left _⟩

theorem State.agentMove_storesOk {s : State} (m : Move) (h : s.storesOk) : (s.agentMove m).storesOk := by
  rcases State.agentMove_cases s m with e | ⟨p, e⟩ | ⟨p, -, hagent, hentry, hnew, e⟩ | ⟨k, op, -, -, -, e⟩ | ⟨l, e⟩ <;>
    rw [e]
  · exact h
  · exact State.evict_storesOk p h
  · exact State.storesOk_addEntry hagent hentry hnew h
  · exact ⟨h.1, h.2.1, fun o ho => h.2.2 o (List.mem_of_mem_eraseIdx ho)⟩
  · exact h

theorem exec_storesOk {i : Instr} {s u : State} (he : exec i s = .next u) (h : s.storesOk) : u.storesOk := by
  rcases exec_pending_cases he with ⟨-, o, rfl⟩ | ⟨sec, regime, vmid, attr, agreed, xt, rfl⟩
  · exact State.storesOk_congr (by simp) (by simp) (by simp) (by simp) h
  · obtain ⟨hmem, htlb, hops⟩ := h
    refine ⟨hmem, htlb, fun op hop => ?_⟩
    rcases List.mem_append.1 hop with hop | hop
    · exact hops op hop
    · rw [List.mem_singleton.1 hop]; exact issued_ok s _

theorem step_storesOk {s u : State} (h : step s = .next u) (hs : s.storesOk) : u.storesOk := by
  refine step_preserves (P := State.storesOk) (fun _ _ hs => hs) (fun s u n hsw hs => ?_)
    (fun _ m hs => State.agentMove_storesOk m hs) (fun _ _ _ he hs => exec_storesOk he hs) h hs
  obtain ⟨hcfg, hmem, htlb, -, hpending, -⟩ := State.switchTo_frame hsw
  exact State.storesOk_congr hcfg hmem htlb hpending hs

/-! ### Aligned addresses -/

theorem pcAligned_add {a b : Word} (ha : pcAligned a = true) (hb : pcAligned b = true) : pcAligned (a + b) = true := by
  rw [pcAligned_iff] at *
  rw [BitVec.toNat_add]
  omega

theorem pcAligned_vectorOffset (source target : EL) : pcAligned (vectorOffset source target) = true := by
  rw [pcAligned_iff, vectorOffset, BitVec.toNat_append]
  simp [Nat.shiftLeft_eq]

/-! ### The executing PE -/

/-- What the invariant asks of one PE: a legal Exception level (10_state.md R13, R18) and aligned addresses (R12). -/
abbrev PE.sound (cfg : Config) (p : PE) : Prop := p.elLegal cfg ∧ p.addressesAligned

/-- The levels a PE may be at (10_state.md R13, R18). -/
abbrev PE.mayEnter (cfg : Config) (p : PE) (l : EL) : Prop :=
  (l = .el2 → p.el2Enabled cfg = true) ∧ (l = .el3 → cfg.haveEl3 = true)

theorem PE.excRegs_vbar_aligned {p : PE} (h : p.addressesAligned) (l : EL) : pcAligned (p.excRegs l).vbar = true := by
  obtain ⟨-, h1, h2, h3⟩ := h
  cases l
  · exact h1
  · exact h1
  · exact h2
  · exact h3

/-- Whether EL2 is enabled is not changed by taking an exception. -/
@[simp] theorem PE.enter_el2Enabled (cfg : Config) (p : PE) (l : EL) (o : ExcOutcome) :
    (p.enter l o).el2Enabled cfg = p.el2Enabled cfg := by
  simp [PE.el2Enabled]

theorem PE.enter_sound {cfg : Config} {p : PE} {l : EL} (o : ExcOutcome) (h : p.sound cfg) (hl : p.mayEnter cfg l) :
    (p.enter l o).sound cfg := by
  obtain ⟨-, haligned⟩ := h
  obtain ⟨e1, e2, e3⟩ := PE.enter_vbar p l o
  refine ⟨by simpa [PE.elLegal] using hl, ?_, ?_⟩
  · exact pcAligned_add (PE.excRegs_vbar_aligned haligned l) (pcAligned_vectorOffset _ _)
  · rw [e1, e2, e3]; exact haligned.2

/-- `Undefined` is taken to a level that is implemented and enabled (60_exceptions.md R90). -/
theorem State.mayEnter_excTarget_undefined {s : State} (h : s.pe.elLegal s.cfg) (pc : Word) :
    s.pe.mayEnter s.cfg (s.excTarget (.undefined pc)) := by
  obtain ⟨h2, h3⟩ := h
  unfold State.excTarget
  cases hel : s.pe.pstate.el with
  | el0 =>
    cases hen : s.el2Enabled with
    | false => simp [PE.mayEnter]
    | true => exact ⟨fun _ => hen, by cases s.hcr.tge <;> simp⟩
  | el1 => simp [PE.mayEnter]
  | el2 => exact ⟨fun _ => h2 hel, by simp⟩
  | el3 => exact ⟨by simp, fun _ => h3 hel⟩

/-- Taking an exception to a level the PE may enter leaves it sound. A `TrapEntry` left open
must do so of its own (log 12). -/
theorem State.takeException_sound {s : State} {o : ExcOutcome} (hopen : s.cfg.trapEntry = .leftOpen → trapEntrySound)
    (h : s.pe.sound s.cfg) (htarget : s.pe.mayEnter s.cfg (s.excTarget o)) : (s.takeException o).pe.sound s.cfg := by
  cases hentry : s.cfg.trapEntry with
  | faultMark => rw [State.takeException_faultMark hentry]; exact h
  | architectural => rw [State.takeException_architectural hentry]; exact PE.enter_sound o h htarget
  | leftOpen => rw [State.takeException_leftOpen hentry]; exact hopen hentry s o h

theorem exec_sound {i : Instr} {s u : State} (he : exec i s = .next u)
    (hopen : s.cfg.trapEntry = .leftOpen → trapEntrySound) (h : s.pe.sound s.cfg) : u.pe.sound s.cfg := by
  rcases exec_next_cases he with ⟨-, rfl⟩ | ⟨-, -, htrap, rfl⟩ | ⟨-, -, _, _, _, _, _, _, -, rfl⟩
  · exact State.takeException_sound hopen h (State.mayEnter_excTarget_undefined h.1 _)
  · exact State.takeException_sound hopen h ⟨fun _ => Instr.trapped_el2Enabled htrap, nofun⟩
  · obtain ⟨hlevel, hpc, hvbars⟩ := h
    exact ⟨hlevel, pcAligned_add hpc (by decide), hvbars⟩

/-! ### The PEs -/

theorem exec_pesOk {i : Instr} {s u : State} (he : exec i s = .next u)
    (hopen : s.cfg.trapEntry = .leftOpen → trapEntrySound) (h : s.pesOk) : u.pesOk := by
  obtain ⟨hcfg, hself, hothers, -⟩ := exec_frame he
  obtain ⟨hnumbers, hpes⟩ := h
  obtain ⟨hpe, hrest⟩ := List.forall_mem_cons.1 hpes
  refine ⟨by simpa [State.pes, hself, hothers] using hnumbers, ?_⟩
  rw [State.pes, hcfg, hothers]
  exact List.forall_mem_cons.2 ⟨exec_sound he hopen hpe, hrest⟩

theorem State.switchTo_pesOk {s u : State} {n : Nat} (hsw : s.switchTo n = some u) (h : s.pesOk) : u.pesOk := by
  have hperm := State.switchTo_pes_perm hsw
  obtain ⟨hcfg, -⟩ := State.switchTo_frame hsw
  obtain ⟨hnumbers, hpes⟩ := h
  exact ⟨(hperm.map Prod.fst).nodup_iff.2 hnumbers, fun q hq => hcfg ▸ hpes q (hperm.mem_iff.1 hq)⟩

theorem State.agentMove_pesOk {s : State} (m : Move) (h : s.pesOk) : (s.agentMove m).pesOk := by
  obtain ⟨hcfg, hself, hpe, hothers, -⟩ := State.agentMove_frame s m
  simpa only [State.pesOk, State.pes, hcfg, hself, hpe, hothers] using h

theorem step_pesOk {s u : State} (h : step s = .next u) (hopen : s.cfg.trapEntry = .leftOpen → trapEntrySound)
    (hs : s.pesOk) : u.pesOk := by
  refine (step_preserves (P := fun s => (s.cfg.trapEntry = .leftOpen → trapEntrySound) ∧ s.pesOk)
    (fun _ _ hs => hs) (fun s u n hsw hs => ?_) (fun s m hs => ?_) (fun s u i he hs => ?_) h ⟨hopen, hs⟩).2
  · exact ⟨(State.switchTo_frame hsw).1 ▸ hs.1, State.switchTo_pesOk hsw hs.2⟩
  · exact ⟨(State.agentMove_frame s m).1 ▸ hs.1, State.agentMove_pesOk m hs.2⟩
  · exact ⟨(exec_frame he).1 ▸ hs.1, exec_pesOk he hs.1 hs.2⟩

/-! ### The invariant -/

/-- Settles O58: every kind of move keeps the stores, and the PEs; the invariant is the two together. -/
theorem stepKeepsInvariant : Obligations.StepKeepsInvariant := by
  refine ⟨fun s u hinv hopen h => ?_, fun s u hs h => step_storesOk h hs⟩
  obtain ⟨hmem, hpes, htlb, hops⟩ := hinv
  obtain ⟨hmem', htlb', hops'⟩ := step_storesOk h ⟨hmem, htlb, hops⟩
  exact ⟨hmem', step_pesOk h hopen hpes, htlb', hops'⟩

/-- Settles O59, by evaluating the invariant, which is decidable, on the one state. -/
theorem resetMeetsInvariant : Obligations.ResetMeetsInvariant :=
  ⟨by decide, rfl, rfl⟩

end Sys2Proof.Machine
end

section
/-! SUPPORT. The statements of 10_state.md: which step can add a TLB entry, and which can take a pending
operation out. -/

namespace Sys2Proof.Machine

/-! ### What a turn leaves alone -/

/-- Every turn of a PE leaves the TLBs as they were before the step. -/
theorem tlb_of_turn {s0 s u : State} (hturn : s0.givesTurn s) (h : runPe s = .next u) : u.tlb = s0.tlb := by
  obtain ⟨-, -, htlb, -⟩ := State.givesTurn_frame hturn
  rcases runPe_next_cases h with rfl | ⟨i, -, he⟩
  · exact htlb
  · obtain ⟨-, -, -, -, htlb', -⟩ := exec_frame he
    exact htlb'.trans htlb

/-! ### Entries of the TLBs -/

/-- Only its `TLBFill` adds an entry among the agents' moves (10_state.md R23). -/
theorem State.mem_agentMove_tlb {s : State} {m : Move} {p : Cached} (h : p ∈ (s.agentMove m).tlb) :
    p ∈ s.tlb ∨ m = .fill p.1 p.2 := by
  rcases State.agentMove_cases s m with e | ⟨q, e⟩ | ⟨q, rfl, -, -, -, e⟩ | ⟨k, op, -, -, -, e⟩ | ⟨l, e⟩ <;>
    rw [e] at h
  · exact .inl h
  · exact .inl (State.mem_evict_tlb.1 h).1
  · rcases List.mem_append.1 h with h | h
    · exact .inl h
    · rw [List.mem_singleton.1 h]; exact .inr rfl
  · exact .inl h
  · exact .inl h

/-- No agent fills a TLB of its own accord. -/
theorem State.ownMove_ne_fill (s : State) (a : Agent) (e : TLBEntry) : s.ownMove ≠ some (.fill a e) := by
  rcases State.ownMove_cases s with ⟨_, _, _, -, -, h⟩ | ⟨-, _, _, -, -, h⟩ | ⟨-, h⟩ <;> simp [h]

/-- Settles O54: of all a step can do only a fill adds an entry, and a fill is always scheduled. -/
theorem entriesAddedOnlyByFill : Obligations.EntriesAddedOnlyByFill := by
  intro s u p h hp hnew
  rcases step_next_cases h with ⟨s', hturn, hrun⟩ | ⟨n, ms, -, rfl⟩ | ⟨m, ms, hs, rfl⟩ | ⟨m, -, hm, rfl⟩
  · exact absurd (tlb_of_turn hturn hrun ▸ hp) hnew
  · exact absurd hp hnew
  · obtain rfl := (State.mem_agentMove_tlb hp).resolve_left hnew
    rw [hs, List.head?_cons]
  · obtain rfl := (State.mem_agentMove_tlb hp).resolve_left hnew
    exact absurd hm (s.ownMove_ne_fill p.1 p.2)

/-! ### Pending operations -/

/-- Every operation of `ops` is in `ops'` at its place, with nothing changed but entries gone from its `todo`. -/
def OpsStay (ops ops' : List TlbiOp) : Prop :=
  ∀ (j : Nat) (op : TlbiOp), ops[j]? = some op → ∃ l, ops'[j]? = some { op with todo := l } ∧ ∀ p ∈ l, p ∈ op.todo

theorem OpsStay.refl (ops : List TlbiOp) : OpsStay ops ops :=
  fun _ op h => ⟨op.todo, h, fun _ hp => hp⟩

/-- Issuing one more operation leaves those before it in place. -/
theorem OpsStay.append (ops ops' : List TlbiOp) : OpsStay ops (ops ++ ops') := by
  intro j op h
  obtain ⟨hj, -⟩ := List.getElem?_eq_some_iff.1 h
  exact ⟨op.todo, by rw [List.getElem?_append_left hj]; exact h, fun _ hp => hp⟩

/-- Evicting an entry leaves every operation in place, the entry gone from its `todo`. -/
theorem OpsStay.evict (s : State) (p : Cached) : OpsStay s.pending (s.evict p).pending :=
  fun _ op h => ⟨op.todo.filter (· != p), by simp [h], fun _ hq => (List.mem_filter.1 hq).1⟩

/-- No turn of a PE takes an operation out. -/
theorem opsStay_of_turn {s0 s u : State} (hturn : s0.givesTurn s) (h : runPe s = .next u) :
    OpsStay s0.pending u.pending := by
  obtain ⟨-, -, -, -, hpending, -⟩ := State.givesTurn_frame hturn
  rw [← hpending]
  rcases runPe_next_cases h with rfl | ⟨i, -, he⟩
  · exact .refl _
  · rcases exec_pending_cases he with ⟨hsame, -⟩ | ⟨_, _, _, _, _, _, rfl⟩
    · rw [hsame]; exact .refl _
    · exact .append _ _

/-- An agent's move leaves every operation in place, or retires a complete one (40_tlbi_rvaae1os.md R82). -/
theorem State.agentMove_pending (s : State) (m : Move) :
    OpsStay s.pending (s.agentMove m).pending
    ∨ ∃ k op, m = .retire k ∧ s.pending[k]? = some op ∧ s.complete op = true
        ∧ (s.agentMove m).pending = s.pending.eraseIdx k := by
  rcases State.agentMove_cases s m with e | ⟨p, e⟩ | ⟨p, -, -, -, -, e⟩ | ⟨k, op, hm, hop, hc, e⟩ | ⟨l, e⟩ <;> rw [e]
  · exact .inl (.refl _)
  · exact .inl (.evict s p)
  · exact .inl (.refl _)
  · exact .inr ⟨k, op, hm, hop, hc, rfl⟩
  · exact .inl (.refl _)

/-- Retiring a complete operation takes it, and nothing else, out. -/
theorem State.agentMove_retire_of_complete {s : State} {k : Nat} {op : TlbiOp} (hop : s.pending[k]? = some op)
    (hc : s.complete op = true) : s.agentMove (.retire k) = s.setPending (s.pending.eraseIdx k) := by
  simp [State.agentMove, State.retireMove, hop, hc]

/-- In a step every pending operation stays in place, or a complete one is retired. -/
theorem step_pending {s u : State} (h : step s = .next u) :
    OpsStay s.pending u.pending
    ∨ ∃ k op, s.pending[k]? = some op ∧ s.complete op = true ∧ u.pending = s.pending.eraseIdx k
        ∧ (s.schedule.head? = some (.retire k) ∨ (s.schedule = [] ∧ s.ownMove = some (.retire k))) := by
  rcases step_next_cases h with ⟨s', hturn, hrun⟩ | ⟨n, ms, -, rfl⟩ | ⟨m, ms, hs, rfl⟩ | ⟨m, hs, hm, rfl⟩
  · exact .inl (opsStay_of_turn hturn hrun)
  · exact .inl (.refl _)
  · refine ((s.setSchedule ms).agentMove_pending m).imp id ?_
    rintro ⟨k, op, rfl, hop, hc, hu⟩
    exact ⟨k, op, hop, hc, hu, .inl (by rw [hs, List.head?_cons])⟩
  · refine (s.agentMove_pending m).imp id ?_
    rintro ⟨k, op, rfl, hop, hc, hu⟩
    exact ⟨k, op, hop, hc, hu, .inr ⟨hs, hm⟩⟩

/-- A scheduled retirement of a complete operation takes it out. -/
theorem step_scheduled_retire {s : State} {k : Nat} {op : TlbiOp} {ms : List Move} (hs : s.schedule = .retire k :: ms)
    (hop : s.pending[k]? = some op) (hc : s.complete op = true) :
    step s = .next ((s.setSchedule ms).setPending (s.pending.eraseIdx k)) := by
  have hmove : step s = .next ((s.setSchedule ms).agentMove (.retire k)) := by simp [step, hs]
  rw [hmove, State.agentMove_retire_of_complete (s := s.setSchedule ms) hop hc, State.setSchedule_pending]

/-- With nothing scheduled and nothing left to remove, one of the complete operations is retired. -/
theorem step_own_retire {s : State} (hs : s.schedule = []) (htodo : ∀ op ∈ s.pending, op.todo = [])
    (hcomplete : ∃ op ∈ s.pending, s.complete op = true) :
    ∃ k op, s.pending[k]? = some op ∧ s.complete op = true ∧ step s = .next (s.setPending (s.pending.eraseIdx k)) := by
  rcases State.ownMove_cases s with ⟨k, op, p, hop, hp, -⟩ | ⟨-, k, op, hop, hc, hm⟩ | ⟨hnone, -⟩
  · rw [htodo op (List.mem_of_getElem? hop)] at hp
    exact absurd hp List.not_mem_nil
  · exact ⟨k, op, hop, hc, by rw [step_of_ownMove hs hm, State.agentMove_retire_of_complete hop hc]⟩
  · obtain ⟨op, hop, hc⟩ := hcomplete
    exact absurd hc (by simp [(hnone op hop).2])

/-- Settles O53, a clause for each of the three lemmas above. -/
theorem operationsLeaveOnlyComplete : Obligations.OperationsLeaveOnlyComplete :=
  ⟨fun _ _ h => step_pending h, fun _ _ _ _ hs hop hc => step_scheduled_retire hs hop hc,
    fun _ hs htodo hcomplete => step_own_retire hs htodo hcomplete⟩

end Sys2Proof.Machine
end

section
/-! SUPPORT. The statements of 10_state.md: registers, control bits, the Security state, and where the two instructions
stop. -/

namespace Sys2Proof.Machine

/-! ### Registers and control bits -/

/-- Settles O11: `readX` of 31, and of the others. -/
theorem registerThirtyOneReadsZero : Obligations.RegisterThirtyOneReadsZero :=
  fun s => ⟨s.readX_thirtyOne, fun t => s.readX_of_lt t.isLt⟩

theorem State.hcr_of_haveEl2 {s : State} (h : s.cfg.haveEl2 = true) : s.hcr = s.pe.hcrEl2 := by
  simp [State.hcr, h]

theorem State.hcr_of_not_haveEl2 {s : State} (h : s.cfg.haveEl2 = false) :
    s.hcr = { e2h := false, tge := false, ttlb := false, ttlbos := false } := by
  simp [State.hcr, h]

/-- Where EL2 is enabled (10_state.md R18). -/
theorem State.el2Enabled_iff {s : State} :
    s.el2Enabled = true ↔ s.cfg.haveEl2 = true
      ∧ (s.cfg.haveEl3 = true → s.pe.scrEl3.ns = true ∨ s.pe.scrEl3.eel2 = true) := by
  rw [State.el2Enabled, PE.el2Enabled]
  cases s.cfg.haveEl3 <;> simp

/-- Where `HCRX_EL2` is enabled (10_state.md R19). -/
theorem State.hcrxEnabled_iff {s : State} :
    s.hcrxEnabled = true ↔ s.cfg.featHcx = true
      ∧ (s.cfg.haveEl3 = true → s.pe.scrEl3.hxEn = true) ∧ s.el2Enabled = true := by
  rw [State.hcrxEnabled]
  cases s.cfg.haveEl3 <;> simp [and_assoc]

/-- Settles O22, a clause for each of the control predicates. -/
theorem controlPredicates : Obligations.ControlPredicates :=
  fun _ => ⟨State.hcr_of_haveEl2, State.hcr_of_not_haveEl2, State.el2Enabled_iff, State.hcrxEnabled_iff, rfl⟩

/-! ### The Security state -/

theorem State.secState_without_el3 {s : State} (h : s.cfg.haveEl3 = false) :
    s.secState = some s.cfg.secstateNoEl3 := by
  simp [State.secState, h]

theorem State.secState_without_rme {s : State} (h3 : s.cfg.haveEl3 = true) (hrme : s.cfg.featRme = false) :
    s.secState = some (if s.pe.scrEl3.ns then .nonSecure else .secure) := by
  simp [State.secState, h3, hrme]

/-- Settles O23: without EL3, without FEAT_RME, and with both. -/
theorem securityStateOfBits : Obligations.SecurityStateOfBits := by
  refine fun s => ⟨State.secState_without_el3, fun h3 hrme => ?_, fun h3 hrme => ?_⟩
  · rw [State.secState_without_rme h3 hrme]
    exact ⟨fun hns => by simp [hns], fun hns => by simp [hns]⟩
  · refine ⟨?_, ?_, ?_, ?_⟩ <;> intro hnse hns <;> simp [State.secState, h3, hrme, hnse, hns]

/-! ### Where the two instructions stop -/

/-- The register an instruction names. -/
def Instr.rt : Instr → Nat
  | .tlbiRvaae1os t => t
  | .tlbiRvaae1osnxs t => t

/-- Above EL1 both branches are one call of the operation. -/
theorem tlbiAtEl2El3_eq_tlbiRvaa (attr : TlbiAttr) (t : Nat) (s : State) :
    ∃ regime vmid attr' agreed, tlbiAtEl2El3 attr t s = tlbiRvaa regime vmid attr' agreed (s.readX t) s := by
  unfold tlbiAtEl2El3
  split
  · exact ⟨_, _, _, _, rfl⟩
  · exact ⟨_, _, _, _, rfl⟩

/-- An instruction that is there and, at EL1, not trapped is one call of the operation with the register it names. -/
theorem exec_eq_tlbiRvaa {i : Instr} {s : State} (hdef : Instr.isUndefined s i = false)
    (htrap : s.pe.pstate.el = .el1 → Instr.trapped s i = false) :
    ∃ regime vmid attr agreed, exec i s = tlbiRvaa regime vmid attr agreed (s.readX (Instr.rt i)) s := by
  cases i with
  | tlbiRvaae1os t =>
    simp only [Instr.isUndefined, Bool.or_eq_false_iff] at hdef
    obtain ⟨hpresent, hel0⟩ := hdef
    simp only [exec, execTlbiRvaae1os, hpresent]
    cases hel : s.pe.pstate.el with
    | el0 => simp [hel] at hel0
    | el1 => simp only [Instr.trapped] at htrap; rw [htrap hel]; exact ⟨_, _, _, _, rfl⟩
    | el2 => exact tlbiAtEl2El3_eq_tlbiRvaa _ t s
    | el3 => exact tlbiAtEl2El3_eq_tlbiRvaa _ t s
  | tlbiRvaae1osnxs t =>
    simp only [Instr.isUndefined, Bool.or_eq_false_iff] at hdef
    obtain ⟨⟨hpresent, hxs⟩, hel0⟩ := hdef
    simp only [exec, execTlbiRvaae1osnxs, hpresent, hxs]
    cases hel : s.pe.pstate.el with
    | el0 => simp [hel] at hel0
    | el1 => simp only [Instr.trapped] at htrap; rw [htrap hel]; exact ⟨_, _, _, _, rfl⟩
    | el2 => exact tlbiAtEl2El3_eq_tlbiRvaa _ t s
    | el3 => exact tlbiAtEl2El3_eq_tlbiRvaa _ t s

/-- `TLBI_RVAA` refuses the reserved Security state first. -/
theorem tlbiRvaa_of_reservedState {regime : Regime} {vmid : Option Vmid} {attr : TlbiAttr} {agreed : Bool} {xt : Word}
    {s : State} (h : s.secState = none) :
    tlbiRvaa regime vmid attr agreed xt s = .refused .reservedSecurityState := by
  simp [tlbiRvaa, h]

/-- `TLBI_RVAA` refuses the reserved TG where `TG_RESERVED` says so (30_encoding.md R56). -/
theorem tlbiRvaa_of_reservedTg {regime : Regime} {vmid : Option Vmid} {attr : TlbiAttr} {agreed : Bool} {xt : Word}
    {s : State} (hsec : s.secState ≠ none) (htg : xt.extractLsb' 46 2 = 0b00#2) (h : s.cfg.tgReserved = .refuse) :
    tlbiRvaa regime vmid attr agreed xt s = .refused .reservedGranule := by
  obtain ⟨sec, hsec⟩ := Option.ne_none_iff_exists'.1 hsec
  simp [tlbiRvaa, hsec, decodeXt, htg, h]

/-- Both refusals of an instruction that reaches the operation. -/
theorem exec_refuses {i : Instr} {s : State} (hdef : Instr.isUndefined s i = false)
    (htrap : s.pe.pstate.el = .el1 → Instr.trapped s i = false) :
    (s.secState = none → exec i s = .refused .reservedSecurityState)
    ∧ (s.secState ≠ none → (s.readX (Instr.rt i)).extractLsb' 46 2 = 0b00#2 → s.cfg.tgReserved = .refuse →
        exec i s = .refused .reservedGranule) := by
  obtain ⟨regime, vmid, attr, agreed, he⟩ := exec_eq_tlbiRvaa hdef htrap
  rw [he]
  exact ⟨tlbiRvaa_of_reservedState, tlbiRvaa_of_reservedTg⟩

/-- Settles O32: each instruction on a path the statement names is there and not trapped. -/
theorem reservedOperandsRefused : Obligations.ReservedOperandsRefused := by
  intro s t hrange hos
  refine ⟨fun hpath => exec_refuses ?_ ?_, fun hxs hpath => exec_refuses ?_ ?_⟩
  · rcases hpath with ⟨hel, -⟩ | hel | hel <;> simp [Instr.isUndefined, present, hrange, hos, hel]
  · intro hel; simpa [Instr.trapped, hel, and_assoc] using hpath
  · rcases hpath with ⟨hel, -⟩ | hel | hel <;> simp [Instr.isUndefined, present, hrange, hos, hxs, hel]
  · intro hel; simpa [Instr.trapped, hel, and_assoc] using hpath

end Sys2Proof.Machine
end

section
/-! SUPPORT. The statements of 20_memory.md: when an operation is complete, that both variants invalidate the same, and
the instructions that wait. -/

namespace Sys2Proof.Machine

/-! ### When an operation is complete -/

/-- An access used an in-scope entry, whichever agent's TLB the entry is in. -/
theorem Access.usesInScope_iff {r : Access} {op : TlbiOp} :
    r.usesInScope op = true ↔ ∃ b e, (b, e) ∈ op.inScope ∧ e ∈ r.used := by
  simp [Access.usesInScope, List.any_eq_true, Prod.exists]

/-- An access that completion does not wait for: outside the domain, without an in-scope entry, complete, or, for
`ExcludeXS`, with `xs` set. -/
theorem waitsForAccess_eq_false_iff {cfg : Config} {op : TlbiOp} {r : Access} :
    waitsForAccess cfg op r = false ↔
      (inOsh cfg op.issuer r.agent = true → (∃ b e, (b, e) ∈ op.inScope ∧ e ∈ r.used) →
        (op.attr = .excludeXs → r.xs = false) → r.complete = true) := by
  rw [← Access.usesInScope_iff, waitsForAccess]
  cases op.attr with
  | allAttr => simp
  | excludeXs => cases r.xs <;> simp

/-- Completion of either variant: nothing left to remove, and no access left to wait for (20_memory.md R42, R43). -/
theorem State.complete_iff {s : State} {op : TlbiOp} :
    s.complete op = true ↔ op.todo = [] ∧ ∀ r ∈ s.accesses, inOsh s.cfg op.issuer r.agent = true →
      (∃ b e, (b, e) ∈ op.inScope ∧ e ∈ r.used) → (op.attr = .excludeXs → r.xs = false) → r.complete = true := by
  simp only [State.complete, Bool.and_eq_true, List.isEmpty_iff, List.all_eq_true, Bool.not_eq_true',
    waitsForAccess_eq_false_iff]

/-- Settles O48: an `AllAttr` operation waits whatever an access's `xs` is. -/
theorem completionOfAllAttr : Obligations.CompletionOfAllAttr := by
  intro s op hattr
  simp [State.complete_iff, hattr]

/-- Settles O49: the accesses with `xs` set are excepted, and the twins differ in that alone. -/
theorem completionOfExcludeXs : Obligations.CompletionOfExcludeXs := by
  refine fun s op => ⟨fun hattr => by simp [State.complete_iff, hattr], fun h => ?_⟩
  obtain ⟨htodo, haccesses⟩ := State.complete_iff.1 h
  exact State.complete_iff.2 ⟨htodo, fun r hr hosh hused _ => haccesses r hr hosh hused nofun⟩

/-! ### Both variants -/

/-- A state after issue determines the operation issued. -/
theorem State.afterIssue_injective (s : State) : Function.Injective s.afterIssue := fun op op' h => by
  simpa using congrArg State.pending h

/-- An exception issues nothing (40_tlbi_rvaae1os.md R60, R61). -/
theorem State.takeException_ne_afterIssue (s : State) (o : ExcOutcome) (op : TlbiOp) :
    s.takeException o ≠ s.afterIssue op := fun h => by
  simpa using congrArg State.pending h

/-- An instruction that is there is trapped at EL1 where its trap condition holds. -/
theorem exec_of_trapped {i : Instr} {s : State} (hdef : Instr.isUndefined s i = false) (hel : s.pe.pstate.el = .el1)
    (htrap : Instr.trapped s i = true) : exec i s = .next (s.raiseSystemAccessTrap i) := by
  cases i with
  | tlbiRvaae1os t =>
    simp only [Instr.isUndefined, Bool.or_eq_false_iff] at hdef
    obtain ⟨hpresent, -⟩ := hdef
    simp only [Instr.trapped] at htrap
    simp [exec, execTlbiRvaae1os, hpresent, hel, htrap]
  | tlbiRvaae1osnxs t =>
    simp only [Instr.isUndefined, Bool.or_eq_false_iff] at hdef
    obtain ⟨⟨hpresent, hxs⟩, -⟩ := hdef
    simp only [Instr.trapped] at htrap
    simp [exec, execTlbiRvaae1osnxs, hpresent, hxs, hel, htrap]

/-- An instruction that issues is there and, at EL1, not trapped. -/
theorem exec_issues {i : Instr} {s : State} {op : TlbiOp} (h : exec i s = .next (s.afterIssue op)) :
    Instr.isUndefined s i = false ∧ (s.pe.pstate.el = .el1 → Instr.trapped s i = false) := by
  rcases exec_next_cases h with ⟨-, e⟩ | ⟨-, -, -, e⟩ | ⟨hdef, -, -⟩
  · exact absurd e.symm (s.takeException_ne_afterIssue _ op)
  · exact absurd e.symm (s.takeException_ne_afterIssue _ op)
  · refine ⟨hdef, fun hel => Bool.eq_false_iff.2 fun htrap => ?_⟩
    exact s.takeException_ne_afterIssue _ op (Host.Outcome.next.inj ((exec_of_trapped hdef hel htrap).symm.trans h))

/-- Where `TLBI_RVAA` issues with one `attr` it issues with any other, and the operation differs in that alone. -/
theorem tlbiRvaa_attr {regime : Regime} {vmid : Option Vmid} {attr : TlbiAttr} {agreed : Bool} {xt : Word} {s : State}
    {op : TlbiOp} (h : tlbiRvaa regime vmid attr agreed xt s = .next (s.afterIssue op)) (attr' : TlbiAttr) :
    tlbiRvaa regime vmid attr' agreed xt s = .next (s.afterIssue { op with attr := attr' }) := by
  unfold tlbiRvaa at *
  cases hsec : s.secState with
  | none => simp [hsec] at h
  | some sec =>
    simp only [hsec] at h ⊢
    split at h
    · cases h
    · obtain rfl := s.afterIssue_injective (Host.Outcome.next.inj h)
      rw [if_neg ‹_›]
      rfl

/-- Above EL1 every argument of the call but `attr` is fixed by the state. -/
theorem tlbiAtEl2El3_eq_tlbiRvaa_attr (t : Nat) (s : State) :
    ∃ regime vmid agreed, ∀ attr, tlbiAtEl2El3 attr t s = tlbiRvaa regime vmid attr agreed (s.readX t) s := by
  cases h : s.hostRegime with
  | false => exact ⟨.el10, s.vmidArg, true, fun _ => by simp [tlbiAtEl2El3, h]⟩
  | true => exact ⟨.el20, none, s.pe.pstate.el != .el3 || s.el2Enabled, fun _ => by simp [tlbiAtEl2El3, h]⟩

/-- Where neither instruction takes an exception both make the same call but for `attr`. -/
theorem exec_variants_eq_tlbiRvaa {t : Nat} {s : State} (hdef : Instr.isUndefined s (.tlbiRvaae1osnxs t) = false)
    (htrap : s.pe.pstate.el = .el1 → Instr.trapped s (.tlbiRvaae1os t) = false)
    (htrap' : s.pe.pstate.el = .el1 → Instr.trapped s (.tlbiRvaae1osnxs t) = false) :
    ∃ regime vmid attr agreed, exec (.tlbiRvaae1os t) s = tlbiRvaa regime vmid attr agreed (s.readX t) s
      ∧ exec (.tlbiRvaae1osnxs t) s = tlbiRvaa regime vmid .excludeXs agreed (s.readX t) s := by
  simp only [Instr.isUndefined, Bool.or_eq_false_iff] at hdef
  obtain ⟨⟨hpresent, hxs⟩, hel0⟩ := hdef
  obtain ⟨regime, vmid, agreed, hcall⟩ := tlbiAtEl2El3_eq_tlbiRvaa_attr t s
  simp only [exec, execTlbiRvaae1os, execTlbiRvaae1osnxs, hpresent, hxs]
  cases hel : s.pe.pstate.el with
  | el0 => simp [hel] at hel0
  | el1 =>
    simp only [Instr.trapped] at htrap htrap'
    rw [htrap hel, htrap' hel]
    exact ⟨_, _, _, _, rfl, rfl⟩
  | el2 => exact ⟨_, _, _, _, hcall _, hcall _⟩
  | el3 => exact ⟨_, _, _, _, hcall _, hcall _⟩

/-- Settles O34: both instructions are the same call but for `attr`, which the operation only records. -/
theorem bothVariantsSameInvalidation : Obligations.BothVariantsSameInvalidation := by
  intro s t op op' h h'
  obtain ⟨-, htrap⟩ := exec_issues h
  obtain ⟨hdef, htrap'⟩ := exec_issues h'
  obtain ⟨regime, vmid, attr, agreed, he, he'⟩ := exec_variants_eq_tlbiRvaa hdef htrap htrap'
  have htwin := tlbiRvaa_attr (he ▸ h) .excludeXs
  exact s.afterIssue_injective (Host.Outcome.next.inj (h'.symm.trans (he'.trans htwin)))

/-! ### Instructions that wait -/

/-- A PE without a mark, not at its END_PC, at an aligned pc with the word of an instruction, executes it or waits. -/
theorem State.turn_of_word {s : State} {i : Instr} {rest bytes : List Byte} (hmark : s.pe.mark = none)
    (hend : endPcOf s.cfg s.self ≠ s.pe.pc) (hpc : pcAligned s.pe.pc = true) (hfetch : s.fetchBytes = some bytes)
    (hdecode : decodeBytes bytes = .ok (i, rest)) : s.turn = if s.mustWait i then .waiting else .execute i := by
  simp [State.turn, hmark, hend, hpc, hfetch, hdecode]

/-- When an instruction waits (20_memory.md R38). -/
theorem State.mustWait_iff {s : State} {i : Instr} :
    s.mustWait i = true ↔ i ∈ s.cfg.completionObserver
      ∧ ∃ op ∈ s.pending, op.issuer = s.self ∧ s.complete op = false := by
  simp [State.mustWait]

/-- Settles O9: the instruction must wait, so the turn is one of waiting. -/
theorem completionObserverWaits : Obligations.CompletionObserverWaits := by
  intro s0 s i rest bytes op hturn hmark hend hpc hfetch hdecode hobserver hop hissuer hcomplete
  have hwait : s.mustWait i = true := State.mustWait_iff.2 ⟨hobserver, op, hop, hissuer, hcomplete⟩
  have hwaiting : s.turn = .waiting := by
    rw [State.turn_of_word hmark hend hpc hfetch hdecode, hwait, if_pos rfl]
  rw [step_of_givesTurn hturn, runPe, hwaiting]

end Sys2Proof.Machine
end

section
/-! SUPPORT. The statements of 20_memory.md: dropped entries, and what no step writes. -/

namespace Sys2Proof.Machine

/-! ### Dropped entries -/

/-- A scheduled drop is the eviction of its entry. -/
theorem step_scheduled_discard {s : State} {p : Cached} {ms : List Move} (hs : s.schedule = .discard p.1 p.2 :: ms) :
    step s = .next ((s.setSchedule ms).evict p) := by
  simp [step, hs, State.agentMove]

/-- Settles O51: evicting the entry takes it out of its TLB and of every `todo`, and nothing else changes. -/
theorem anyEntryMayBeDropped : Obligations.AnyEntryMayBeDropped := by
  refine fun s p ms hs => ⟨_, step_scheduled_discard hs, fun q => State.mem_evict_tlb, fun o ho => ?_, rfl, rfl, by simp⟩
  obtain ⟨op, -, rfl⟩ := State.mem_evict_pending.1 ho
  simp

/-! ### What no step writes -/

/-- The configuration and memory are no move's and no instruction's to change (20_memory.md R30). -/
theorem step_cfg_mem {s u : State} (h : step s = .next u) : u.cfg = s.cfg ∧ u.mem = s.mem := by
  refine step_preserves (P := fun v => v.cfg = s.cfg ∧ v.mem = s.mem) (fun _ _ hv => hv) (fun v w n hsw hv => ?_)
    (fun v m hv => ?_) (fun v w i he hv => ?_) h ⟨rfl, rfl⟩
  · obtain ⟨hcfg, hmem, -⟩ := State.switchTo_frame hsw
    exact ⟨hcfg.trans hv.1, hmem.trans hv.2⟩
  · obtain ⟨hcfg, -, -, -, hmem, -⟩ := v.agentMove_frame m
    exact ⟨hcfg.trans hv.1, hmem.trans hv.2⟩
  · obtain ⟨hcfg, -, -, hmem, -⟩ := exec_frame he
    exact ⟨hcfg.trans hv.1, hmem.trans hv.2⟩

/-- No instruction writes a register of the PE that executes it, unless `TrapEntry` is left open. -/
theorem exec_sameRegisters {i : Instr} {s u : State} (he : exec i s = .next u) (hopen : s.cfg.trapEntry ≠ .leftOpen) :
    s.pe.SameRegisters u.pe := by
  rcases exec_pending_cases he with ⟨-, o, rfl⟩ | ⟨_, _, _, _, _, _, rfl⟩
  · exact State.takeException_sameRegisters hopen o
  · exact ⟨rfl, rfl, rfl, rfl, rfl, rfl, rfl, rfl, rfl, rfl⟩

/-- The PEs of `s` are those of `u`, under the same numbers and, unless `TrapEntry` is left open, with the same
registers. -/
def State.KeepsPes (s u : State) : Prop :=
  ∀ n p, s.peOf n = some p → ∃ q, u.peOf n = some q ∧ (s.cfg.trapEntry ≠ .leftOpen → p.SameRegisters q)

theorem State.KeepsPes.of_peOf_eq {s u : State} (h : ∀ n, u.peOf n = s.peOf n) : s.KeepsPes u :=
  fun n p hp => ⟨p, (h n).trans hp, fun _ => .refl p⟩

theorem State.agentMove_peOf (s : State) (m : Move) (n : Nat) : (s.agentMove m).peOf n = s.peOf n := by
  obtain ⟨-, hself, hpe, hothers, -⟩ := s.agentMove_frame m
  rw [State.peOf, State.peOf, hself, hpe, hothers]

theorem exec_keepsPes {i : Instr} {s u : State} (he : exec i s = .next u) : s.KeepsPes u := by
  obtain ⟨-, hself, hothers, -⟩ := exec_frame he
  intro n p hp
  by_cases hn : n = s.self
  · subst hn
    rw [State.peOf_self, Option.some.injEq] at hp
    subst hp
    exact ⟨u.pe, hself ▸ u.peOf_self, exec_sameRegisters he⟩
  · exact ⟨p, (State.peOf_of_others hself hothers hn).trans hp, fun _ => .refl p⟩

/-- A turn keeps the PEs, whichever of them it makes the executing one. -/
theorem keepsPes_of_turn {s0 s u : State} (hnumbers : (s0.pes.map Prod.fst).Nodup) (hturn : s0.givesTurn s)
    (hrun : runPe s = .next u) : s0.KeepsPes u := by
  obtain ⟨hcfg, -⟩ := State.givesTurn_frame hturn
  have hpeOf := State.givesTurn_peOf hnumbers hturn
  rcases runPe_next_cases hrun with rfl | ⟨i, -, he⟩
  · exact .of_peOf_eq hpeOf
  · intro n p hp
    rw [← hcfg]
    exact exec_keepsPes he n p ((hpeOf n).trans hp)

theorem step_keepsPes {s u : State} (hnumbers : (s.pes.map Prod.fst).Nodup) (h : step s = .next u) : s.KeepsPes u := by
  rcases step_next_cases h with ⟨s', hturn, hrun⟩ | ⟨n, ms, -, rfl⟩ | ⟨m, ms, -, rfl⟩ | ⟨m, -, -, rfl⟩
  · exact keepsPes_of_turn hnumbers hturn hrun
  · exact .of_peOf_eq fun _ => rfl
  · exact .of_peOf_eq fun n => (s.setSchedule ms).agentMove_peOf m n
  · exact .of_peOf_eq fun n => s.agentMove_peOf m n

/-- Settles O55: the configuration and memory, and the PEs under their numbers. -/
theorem noStepWritesRegistersOrMemory : Obligations.NoStepWritesRegistersOrMemory := by
  intro s u hpes h
  obtain ⟨hcfg, hmem⟩ := step_cfg_mem h
  exact ⟨hcfg, fun a => by rw [hmem], step_keepsPes hpes.1 h⟩

end Sys2Proof.Machine
end

section
/-! SUPPORT. The headline statements of 20_memory.md: a required entry stays tracked from issue on, and is gone once the
operation that required it is complete. -/

namespace Sys2Proof.Machine

/-! ### A required entry stays tracked -/

/-- `removalTracked` speaks of the TLBs and the pending operations only. -/
theorem State.removalTracked_congr {s u : State} {p : Cached} (htlb : u.tlb = s.tlb) (hpending : u.pending = s.pending)
    (h : s.removalTracked p) : u.removalTracked p := by
  simpa only [State.removalTracked, htlb, hpending] using h

/-- Evicting `p` takes it out of the TLB; evicting another entry takes `p` out of no `todo`. -/
theorem State.evict_removalTracked {s : State} {p : Cached} (q : Cached) (h : s.removalTracked p) :
    (s.evict q).removalTracked p := by
  intro o ho hscope
  obtain ⟨op, hop, rfl⟩ := State.mem_evict_pending.1 ho
  by_cases hpq : p = q
  · exact .inr fun hp => (State.mem_evict_tlb.1 hp).2 hpq
  · refine (h op hop hscope).imp (fun htodo => List.mem_filter.2 ⟨htodo, by simpa using hpq⟩) fun hgone hp => ?_
    exact hgone (State.mem_evict_tlb.1 hp).1

/-- Only its `TLBFill` among the agents' moves could lose track of `p`. -/
theorem State.agentMove_removalTracked {s : State} {m : Move} {p : Cached} (hm : m ≠ .fill p.1 p.2)
    (h : s.removalTracked p) : (s.agentMove m).removalTracked p := by
  rcases State.agentMove_cases s m with e | ⟨q, e⟩ | ⟨q, rfl, -, -, -, e⟩ | ⟨k, op, -, -, -, e⟩ | ⟨l, e⟩ <;> rw [e]
  · exact h
  · exact State.evict_removalTracked q h
  · refine fun op hop hscope => (h op hop hscope).imp id fun hgone hp => ?_
    rcases List.mem_append.1 hp with hp | hp
    · exact hgone hp
    · rw [List.mem_singleton.1 hp] at hm; exact hm rfl
  · exact fun op hop => h op (List.mem_of_mem_eraseIdx hop)
  · exact h

/-- An operation that is issued has everything it requires still to remove (40_tlbi_rvaae1os.md R80). -/
theorem exec_removalTracked {i : Instr} {s u : State} {p : Cached} (he : exec i s = .next u)
    (h : s.removalTracked p) : u.removalTracked p := by
  rcases exec_pending_cases he with ⟨-, o, rfl⟩ | ⟨_, _, _, _, _, _, rfl⟩
  · exact State.removalTracked_congr (by simp) (by simp) h
  · intro op hop hscope
    rcases List.mem_append.1 hop with hop | hop
    · exact h op hop hscope
    · rw [List.mem_singleton.1 hop] at hscope ⊢; exact .inl hscope

theorem removalTracked_of_turn {s0 s u : State} {p : Cached} (hturn : s0.givesTurn s) (hrun : runPe s = .next u)
    (h : s0.removalTracked p) : u.removalTracked p := by
  obtain ⟨-, -, htlb, -, hpending, -⟩ := State.givesTurn_frame hturn
  have hs : s.removalTracked p := State.removalTracked_congr htlb hpending h
  rcases runPe_next_cases hrun with rfl | ⟨i, -, he⟩
  · exact hs
  · exact exec_removalTracked he hs

/-- Settles O56: of all a step can do only a fill of `p` could lose track of it, and the agents fill nothing of their own
accord. -/
theorem stepKeepsRemovalTracked : Obligations.StepKeepsRemovalTracked := by
  intro s u p h hfill hstep
  rcases step_next_cases hstep with ⟨s', hturn, hrun⟩ | ⟨n, ms, -, rfl⟩ | ⟨m, ms, hs, rfl⟩ | ⟨m, -, hm, rfl⟩
  · exact removalTracked_of_turn hturn hrun h
  · exact h
  · refine State.agentMove_removalTracked (s := s.setSchedule ms) ?_ h
    rintro rfl
    exact hfill (by rw [hs, List.head?_cons])
  · refine State.agentMove_removalTracked ?_ h
    rintro rfl
    exact s.ownMove_ne_fill p.1 p.2 hm

/-! ### Along a run -/

/-- A turn uses up the move that gave it. -/
theorem schedule_of_turn {s0 s u : State} (hturn : s0.givesTurn s) (hrun : runPe s = .next u) :
    u.schedule = s0.schedule.tail := by
  have hs : s.schedule = s0.schedule.tail := by
    rcases hturn with ⟨hnil, -, rfl⟩ | ⟨n, ms, hcons, hsw⟩
    · rw [hnil, List.tail_nil]
    · obtain ⟨-, -, -, -, -, hsame⟩ := State.switchTo_frame hsw
      rw [hsame, hcons, List.tail_cons, State.setSchedule_schedule]
  rcases runPe_next_cases hrun with rfl | ⟨i, -, he⟩
  · exact hs
  · obtain ⟨-, -, -, -, -, -, hsame⟩ := exec_frame he
    exact hsame.trans hs

/-- A step takes one move off the schedule and adds none (log 9). -/
theorem step_schedule {s u : State} (h : step s = .next u) : u.schedule = s.schedule.tail := by
  rcases step_next_cases h with ⟨s', hturn, hrun⟩ | ⟨n, ms, hs, rfl⟩ | ⟨m, ms, hs, rfl⟩ | ⟨m, hs, -, rfl⟩
  · exact schedule_of_turn hturn hrun
  · rw [hs, List.tail_cons, State.setSchedule_schedule]
  · obtain ⟨-, -, -, -, -, hsame⟩ := State.agentMove_frame (s.setSchedule ms) m
    rw [hsame, hs, List.tail_cons, State.setSchedule_schedule]
  · obtain ⟨-, -, -, -, -, hsame⟩ := State.agentMove_frame s m
    rw [hsame, hs, List.tail_nil]

/-- A run that does not fill `p` keeps it tracked. -/
theorem run_removalTracked {k : Nat} {s u : State} {p : Cached} (h : s.removalTracked p)
    (hfill : Move.fill p.1 p.2 ∉ s.schedule) (hrun : Host.Core.run Sys2Proof.core k s = .next u) :
    u.removalTracked p := by
  induction k generalizing s with
  | zero => cases hrun; exact h
  | succ k ih =>
    obtain ⟨s', hstep, hrun'⟩ := run_succ_next hrun
    refine ih (stepKeepsRemovalTracked s s' p h (fun hhead => ?_) hstep) (fun hmem => ?_) hrun'
    · exact hfill (List.mem_of_head? hhead)
    · rw [step_schedule hstep] at hmem; exact hfill (List.mem_of_mem_tail hmem)

/-- Settles O57: `p` is tracked at the end of the run, and a complete operation has nothing left to remove. -/
theorem requiredEntriesGoneAtCompletion : Obligations.RequiredEntriesGoneAtCompletion := by
  intro k s u p h hfill hrun op hop hcomplete hscope
  refine (run_removalTracked h hfill hrun op hop hscope).resolve_left fun htodo => ?_
  obtain ⟨hnone, -⟩ := State.complete_iff.1 hcomplete
  rw [hnone] at htodo
  exact List.not_mem_nil htodo

end Sys2Proof.Machine
end

section
/-! SUPPORT. The statements of 30_encoding.md: the words of the two instructions, the decoder and the encoder as each
other's inverse, and the words that are neither instruction's. -/

namespace Sys2Proof

open Machine

/-! ### Fields, mask and word -/

/-- A word put together from field values has these fields (30_encoding.md R45). -/
theorem sysFields_sysWord (op0 : BitVec 2) (op1 : BitVec 3) (crn crm : BitVec 4) (op2 : BitVec 3) (rt : BitVec 5) :
    sysFields (sysWord op0 op1 crn crm op2 rt) =
      { fixed := 0b1101010100, l := 0, op0 := op0, op1 := op1, crn := crn, crm := crm, op2 := op2, rt := rt } := by
  simp only [sysFields, sysWord, SysFields.mk.injEq]
  refine ⟨?_, ?_, ?_, ?_, ?_, ?_, ?_, ?_⟩
  · repeat rw [BitVec.extractLsb'_append_eq_of_le (by decide)]
    exact BitVec.extractLsb'_eq_self
  all_goals
    repeat rw [BitVec.extractLsb'_append_eq_of_le (by decide)]
    exact BitVec.extractLsb'_append_eq_right

/-- The table's mask clears the register field and no other. -/
theorem sysFields_and_mask (w : InstrWord) : sysFields (w &&& 0xFFFFFFE0) = { sysFields w with rt := 0 } := by
  simp only [sysFields, BitVec.extractLsb'_and, SysFields.mk.injEq]
  exact ⟨BitVec.and_allOnes, BitVec.and_allOnes, BitVec.and_allOnes, BitVec.and_allOnes, BitVec.and_allOnes,
    BitVec.and_allOnes, BitVec.and_allOnes, BitVec.and_zero⟩

/-- The words of a row are its match with each register number in turn (30_encoding.md R46, R47). -/
theorem and_mask_eq_sysWord_iff {w : InstrWord} {op0 : BitVec 2} {op1 : BitVec 3} {crn crm : BitVec 4}
    {op2 : BitVec 3} :
    w &&& 0xFFFFFFE0 = sysWord op0 op1 crn crm op2 0 ↔ sysWord op0 op1 crn crm op2 (sysFields w).rt = w := by
  constructor
  · intro h
    have hfields : { sysFields w with rt := 0 } = sysFields (sysWord op0 op1 crn crm op2 0) := by
      rw [← h, sysFields_and_mask]
    rw [sysFields_sysWord, SysFields.mk.injEq] at hfields
    obtain ⟨hfixed, hl, hop0, hop1, hcrn, hcrm, hop2, -⟩ := hfields
    conv_rhs => rw [← join_sysFields w, hfixed, hl, hop0, hop1, hcrn, hcrm, hop2]
    rfl
  · intro h
    rw [← h, Laws.WordInItsRow.mask_sysWord]

/-! ### Decoder and encoder -/

/-- A well-formed instruction decodes from its own word. -/
theorem decodeWord_encode {i : Instr} (h : i.wf = true) : decodeWord (encode i) = .ok i := by
  cases i with
  | tlbiRvaae1os t =>
    have ht : t < 32 := of_decide_eq_true h
    simp [decodeWord, encode, sysFields_sysWord, SysFields.isRvaae1osSpace, Nat.mod_eq_of_lt ht]
  | tlbiRvaae1osnxs t =>
    have ht : t < 32 := of_decide_eq_true h
    simp [decodeWord, encode, sysFields_sysWord, SysFields.isRvaae1osSpace, Nat.mod_eq_of_lt ht]

/-- The words of `SysFields.isRvaae1osSpace`, from `CRn` and `Rt`. -/
theorem eq_sysWord_of_isRvaae1osSpace {w : InstrWord} (h : (sysFields w).isRvaae1osSpace = true) :
    sysWord 0b01#2 0b000#3 (sysFields w).crn 0b0101#4 0b011#3 (sysFields w).rt = w := by
  obtain ⟨hfixed, hl, hop0, hop1, hcrm, hop2⟩ := SysFields.eq_of_isRvaae1osSpace h
  conv_rhs => rw [← join_sysFields w, hfixed, hl, hop0, hop1, hcrm, hop2]
  rfl

/-- The two instructions' words are all that decodes. -/
theorem wf_and_encode_of_decodeWord {w : InstrWord} {i : Instr} (h : decodeWord w = .ok i) :
    i.wf = true ∧ encode i = w := by
  rcases decodeWord_cases w with ⟨hspace, hcrn, hd⟩ | ⟨hspace, hcrn, hd⟩ | hd
  · cases hd.symm.trans h
    refine ⟨decide_eq_true (sysFields w).rt.isLt, ?_⟩
    rw [encode, BitVec.ofNat_toNat, BitVec.setWidth_eq, ← hcrn, eq_sysWord_of_isRvaae1osSpace hspace]
  · cases hd.symm.trans h
    refine ⟨decide_eq_true (sysFields w).rt.isLt, ?_⟩
    rw [encode, BitVec.ofNat_toNat, BitVec.setWidth_eq, ← hcrn, eq_sysWord_of_isRvaae1osSpace hspace]
  · cases hd.symm.trans h

theorem decodeWord_eq_ok_iff {w : InstrWord} {i : Instr} : decodeWord w = .ok i ↔ i.wf = true ∧ encode i = w :=
  ⟨wf_and_encode_of_decodeWord, fun ⟨hwf, he⟩ => he ▸ decodeWord_encode hwf⟩

/-- Settles O3: the bytes join to the word of `i`, and that word decodes to `i`. -/
theorem decodeOfEncode : Obligations.DecodeOfEncode := by
  intro i rest hwf
  rw [encodeBytes, decodeBytes_bytesOfWord, decodeWord_encode hwf]
  rfl

/-- Settles O4, by the cases of the decoder: in each the fields of `w`, joined, are the word of the instruction. -/
theorem encodeOfDecode : Obligations.EncodeOfDecode :=
  fun _ _ => wf_and_encode_of_decodeWord

/-! ### The two rows -/

/-- 30_encoding.md R46: match and mask of `TLBI RVAAE1OS`. -/
theorem inPlainRow_iff_decodeWord (w : InstrWord) :
    w &&& 0xFFFFFFE0#32 = 0xD5088560#32 ↔ decodeWord w = .ok (.tlbiRvaae1os (w.extractLsb' 0 5).toNat) := by
  have hwf : (Instr.tlbiRvaae1os (w.extractLsb' 0 5).toNat).wf = true := decide_eq_true (w.extractLsb' 0 5).isLt
  have hmatch : 0xD5088560#32 = sysWord 0b01#2 0b000#3 0b1000#4 0b0101#4 0b011#3 0 := rfl
  rw [hmatch, decodeWord_eq_ok_iff, encode, BitVec.ofNat_toNat, BitVec.setWidth_eq, and_iff_right hwf]
  exact and_mask_eq_sysWord_iff

/-- 30_encoding.md R47: match and mask of `TLBI RVAAE1OSNXS`. -/
theorem inNxsRow_iff_decodeWord (w : InstrWord) :
    w &&& 0xFFFFFFE0#32 = 0xD5089560#32 ↔ decodeWord w = .ok (.tlbiRvaae1osnxs (w.extractLsb' 0 5).toNat) := by
  have hwf : (Instr.tlbiRvaae1osnxs (w.extractLsb' 0 5).toNat).wf = true := decide_eq_true (w.extractLsb' 0 5).isLt
  have hmatch : 0xD5089560#32 = sysWord 0b01#2 0b000#3 0b1001#4 0b0101#4 0b011#3 0 := rfl
  rw [hmatch, decodeWord_eq_ok_iff, encode, BitVec.ofNat_toNat, BitVec.setWidth_eq, and_iff_right hwf]
  exact and_mask_eq_sysWord_iff

/-- The register number stands in the low bits of a word that has zeros there. -/
theorem sysWord_ofNat_rt (op0 : BitVec 2) (op1 : BitVec 3) (crn crm : BitVec 4) (op2 : BitVec 3) {t : Nat}
    (ht : t < 32) :
    sysWord op0 op1 crn crm op2 (BitVec.ofNat 5 t) = sysWord op0 op1 crn crm op2 0 ||| BitVec.ofNat 32 t := by
  have hor : ∀ (h : BitVec 27) (r : BitVec 5), h ++ r = (h ++ 0#5) ||| (0#27 ++ r) := by
    intro h r
    rw [BitVec.or_append, BitVec.or_zero, BitVec.zero_or]
  have hrt : BitVec.ofNat 32 t = 0#27 ++ BitVec.ofNat 5 t := by
    rw [← BitVec.setWidth_ofNat_of_le_of_lt (w := 5) (v := 32) (by decide) ht, BitVec.setWidth_eq_append (by decide)]
    rfl
  rw [hrt]
  exact hor _ _

/-- An odd `CRn` is bit 12 of the word set (30_encoding.md R45). -/
theorem sysWord_xor_crn (op0 : BitVec 2) (op1 : BitVec 3) (crn crm : BitVec 4) (op2 : BitVec 3) (rt : BitVec 5) :
    sysWord op0 op1 (crn ^^^ 1#4) crm op2 rt = sysWord op0 op1 crn crm op2 rt ^^^ (1#32 <<< 12) := by
  have hbit : 1#32 <<< 12 = 0#10 ++ 0#1 ++ 0#2 ++ 0#3 ++ 1#4 ++ 0#4 ++ 0#3 ++ 0#5 := by decide
  rw [hbit, sysWord, sysWord]
  repeat rw [BitVec.xor_append]
  simp only [BitVec.xor_zero]

/-- Settles O1: the iff over all words, then the word of each register number. -/
theorem plainWordMatchAndMask : Obligations.PlainWordMatchAndMask :=
  ⟨inPlainRow_iff_decodeWord, fun _ ht => ⟨sysWord_ofNat_rt _ _ _ _ _ ht, sysFields_sysWord ..⟩⟩

/-- Settles O2, as O1; the words of the two rows differ in the lowest bit of `CRn`. -/
theorem nxsWordMatchAndMask : Obligations.NxsWordMatchAndMask :=
  ⟨inNxsRow_iff_decodeWord, fun _ ht =>
    ⟨sysWord_ofNat_rt _ _ _ _ _ ht, sysWord_xor_crn _ _ 0b1000#4 _ _ _, sysFields_sysWord ..⟩⟩

/-! ### Every other word -/

/-- 30_encoding.md R59: a word in neither row is rejected by name. -/
theorem decodeWord_of_inNeitherRow {w : InstrWord} (hplain : w &&& 0xFFFFFFE0#32 ≠ 0xD5088560#32)
    (hnxs : w &&& 0xFFFFFFE0#32 ≠ 0xD5089560#32) : decodeWord w = .error (.notInThisSpec w) := by
  rcases decodeWord_cases w with ⟨-, -, hd⟩ | ⟨-, -, hd⟩ | hd
  · exact absurd ((inPlainRow_iff_decodeWord w).2 hd) hplain
  · exact absurd ((inNxsRow_iff_decodeWord w).2 hd) hnxs
  · exact hd

/-- A PE without a mark, not at its END_PC, at an aligned pc with the bytes of a word that is rejected, refuses it. -/
theorem turn_of_rejectedWord {s : State} {w : InstrWord} (hmark : s.pe.mark = none)
    (hend : endPcOf s.cfg s.self ≠ s.pe.pc) (hpc : pcAligned s.pe.pc = true)
    (hfetch : s.fetchBytes = some (bytesOfWord w)) (hdecode : decodeWord w = .error (.notInThisSpec w)) :
    s.turn = .refuse (.notInThisSpec w) := by
  have hbytes : decodeBytes (bytesOfWord w) = .error (.notInThisSpec w) := by
    rw [← List.append_nil (bytesOfWord w), decodeBytes_bytesOfWord, hdecode]
    rfl
  simp [State.turn, hmark, hend, hpc, hfetch, hbytes]

/-- Settles O5: the decoder rejects the word, so the turn, and with it the step, refuses it. -/
theorem everyOtherWordRefused : Obligations.EveryOtherWordRefused := by
  intro w hplain hnxs
  have hdecode := decodeWord_of_inNeitherRow hplain hnxs
  refine ⟨hdecode, fun s0 s hturn hmark hend hpc hfetch => ?_⟩
  rw [step_of_givesTurn hturn, runPe, turn_of_rejectedWord hmark hend hpc hfetch hdecode]

end Sys2Proof
end

section
/-! SUPPORT. The statements of 30_encoding.md: the register operand, its granule and start, the reserved TTL, the bits
that are ignored, and where the two instructions are not there to be executed. -/

namespace Sys2Proof.Machine

/-! ### The fields and the granule -/

/-- Settles O12: each field begins where the one before it ends. -/
theorem xtFieldsPartitionTheRegister : Obligations.XtFieldsPartitionTheRegister := by
  intro v
  simp only [decodeXt]
  repeat rw [BitVec.extractLsb'_append_extractLsb'_eq_extractLsb' (by rfl)]
  exact BitVec.extractLsb'_eq_self

/-- Settles O13, a granule for each TG value. (`granuleOfTg` is the model's own name.) -/
theorem granuleOfTg_values : Obligations.GranuleOfTg :=
  ⟨rfl, ⟨.g4K, rfl, rfl, rfl⟩, ⟨.g16K, rfl, rfl, rfl⟩, ⟨.g64K, rfl, rfl, rfl⟩⟩

/-! ### The start of the range -/

/-- The field with the bits above it, before it is shifted to its place (30_encoding.md R53). -/
theorem toNat_extendUpper (u : BaseAddrUpper) (f : BitVec 37) :
    (if upperIsSign u then f.signExtend 64 else f.zeroExtend 64).toNat
      = f.toNat + (if upperIsSign u && f.msb then 2 ^ 64 - 2 ^ 37 else 0) := by
  have hf : (f.zeroExtend 64).toNat = f.toNat := BitVec.toNat_setWidth_of_le (by decide)
  cases upperIsSign u with
  | false => rw [if_neg (by simp), hf]; rfl
  | true => rw [if_pos rfl, BitVec.toNat_signExtend, Bool.true_and, ← hf]

/-- BaseADDR as a number: the shift moves the field up and the highest bits out (30_encoding.md R53). -/
theorem toNat_baseAddr (u : BaseAddrUpper) {b : Nat} (hb : b ≤ 27) (f : BitVec 37) :
    (baseAddr u b f).toNat = f.toNat * 2 ^ b + (if upperIsSign u && f.msb then 2 ^ 64 - 2 ^ (b + 37) else 0) := by
  have hpos : 0 < 2 ^ b := Nat.two_pow_pos b
  have hle : 2 ^ b ≤ 2 ^ 27 := Nat.pow_le_pow_right Nat.two_pos hb
  have hfield : f.toNat * 2 ^ b < 2 ^ 37 * 2 ^ b := Nat.mul_lt_mul_of_pos_right f.isLt hpos
  rw [baseAddr, BitVec.toNat_shiftLeft, toNat_extendUpper, Nat.shiftLeft_eq, Nat.add_mul, Nat.pow_add]
  split <;> omega

/-- The slices of BaseADDR with the field at bit 16 (30_encoding.md R52). -/
theorem slices_baseAddr_sixteen (u : BaseAddrUpper) (f : BitVec 37) :
    (baseAddr u 16 f).extractLsb' 16 37 = f ∧ (baseAddr u 16 f).extractLsb' 0 16 = 0#16 := by
  have hf := f.isLt
  have hbase := toNat_baseAddr u (b := 16) (by decide) f
  refine ⟨BitVec.eq_of_toNat_eq ?_, BitVec.eq_of_toNat_eq ?_⟩
  · rw [BitVec.extractLsb'_toNat, hbase, Nat.shiftRight_eq_div_pow]
    split <;> omega
  · rw [BitVec.extractLsb'_toNat, hbase, Nat.shiftRight_zero, BitVec.toNat_zero]
    split <;> omega

/-- Settles O14: with FEAT_LPA2 and DS the field stands from bit 16 on at every granule. -/
theorem baseAddrWithLpa2 : Obligations.BaseAddrWithLpa2 := by
  intro cfg v hlpa2 htg
  obtain ⟨g, hg⟩ := granuleOfTg_of_ne htg
  have hbase : baseOf cfg true (decodeXt v) g = baseAddr cfg.baseAddrUpper 16 (v.extractLsb' 0 37) := by
    rw [baseOf, hlpa2]
    rfl
  exact ⟨_, rangeOf_of_granule (d := decodeXt v) hg, by rw [hbase]; exact slices_baseAddr_sixteen ..⟩

/-- With `BASEADDR_UPPER` left open a field whose top bit is 1 guarantees nothing. -/
theorem guaranteedOf_of_openUpper {cfg : Config} {ds agreed : Bool} {d : XtFields}
    (hopen : cfg.baseAddrUpper = .leftOpen) (hmsb : d.baFld.msb = true) : guaranteedOf cfg ds agreed d = false := by
  cases hg : granuleOfTg d.tg with
  | none => exact guaranteedOf_of_reserved hg
  | some g => simp [guaranteedOf_of_granule hg, hopen, hmsb]

/-- Settles O15: every granule's shift leaves the field within the 64 bits. -/
theorem baseAddrPlacement : Obligations.BaseAddrPlacement := by
  intro cfg ds v g hg
  have hshift : baseShift (cfg.featLpa2 && ds) g ≤ 27 := (baseShift_bounds _ g).2.2.trans (by decide)
  exact ⟨_, rangeOf_of_granule (d := decodeXt v) hg, toNat_baseAddr _ hshift _, rfl, rfl, rfl,
    fun hopen hmsb _ => guaranteedOf_of_openUpper hopen hmsb⟩

/-! ### The reserved TTL -/

/-- The reserved TTL value guarantees nothing where `TTL01_16K_NOLPA2` says so (30_encoding.md R57). -/
theorem guaranteedOf_of_ttl01Reserved {cfg : Config} {ds agreed : Bool} {d : XtFields}
    (hreserved : ttl01Reserved cfg d = true) (h : cfg.ttl01At16K = .noGuarantee) :
    guaranteedOf cfg ds agreed d = false := by
  cases hg : granuleOfTg d.tg with
  | none => exact guaranteedOf_of_reserved hg
  | some g => simp [guaranteedOf_of_granule hg, hreserved, h]

/-- Settles O20: the TTL value is replaced only where it is reserved. -/
theorem reservedTtlAt16K : Obligations.ReservedTtlAt16K := by
  refine fun cfg v => ⟨fun hlpa2 htg httl => ?_, fun hnot => ?_⟩
  · have hreserved : ttl01Reserved cfg (decodeXt v) = true := ttl01Reserved_iff.2 ⟨hlpa2, htg, httl⟩
    exact ⟨fun h => by simp [effectiveTtl, hreserved, h],
      fun h _ _ => guaranteedOf_of_ttl01Reserved hreserved h⟩
  · have hreserved : ttl01Reserved cfg (decodeXt v) = false := Bool.eq_false_iff.2 (mt ttl01Reserved_iff.1 hnot)
    simp only [effectiveTtl, hreserved, Bool.false_and]
    rfl

/-! ### The bits that are ignored -/

/-- Bits [47:0] of the operand fix every field but `res0` (30_encoding.md R48). -/
theorem decodeXt_of_low_eq {v v' : Word} (h : v.extractLsb' 0 48 = v'.extractLsb' 0 48) :
    decodeXt v' = { decodeXt v with res0 := (decodeXt v').res0 } := by
  have hfield : ∀ start len, start + len ≤ 48 → v'.extractLsb' start len = v.extractLsb' start len := by
    intro start len hle
    rw [← BitVec.extractLsb'_extractLsb'_of_le hle, ← h, BitVec.extractLsb'_extractLsb'_of_le hle]
  simp only [decodeXt, XtFields.mk.injEq]
  exact ⟨trivial, hfield 46 2 (by decide), hfield 44 2 (by decide), hfield 39 5 (by decide), hfield 37 2 (by decide),
    hfield 0 37 (by decide)⟩

/-- The operation record does not hold `res0` or anything made of it. -/
theorem buildOp_of_low_eq {v v' : Word} (h : v.extractLsb' 0 48 = v'.extractLsb' 0 48) (s : State)
    (sec : SecurityState) (regime : Regime) (vmid : Option Vmid) (attr : TlbiAttr) (agreed : Bool) :
    buildOp s sec regime vmid attr agreed v' = buildOp s sec regime vmid attr agreed v := by
  rw [buildOp, decodeXt_of_low_eq h]
  rfl

/-- Settles O21: both the test of TG and the operation record are the same. -/
theorem res0BitsIgnored : Obligations.Res0BitsIgnored := by
  intro regime vmid attr agreed s v v' h
  have htg : (decodeXt v').tg = (decodeXt v).tg := by rw [decodeXt_of_low_eq h]
  simp only [tlbiRvaa, buildOp_of_low_eq h, htg]

/-! ### Where the two instructions are not there -/

/-- An instruction that is not there to be executed raises `Undefined` (60_exceptions.md R94, steps 1 to 3). -/
theorem exec_of_isUndefined {i : Instr} {s : State} (h : Instr.isUndefined s i = true) :
    exec i s = .next s.raiseUndefined := by
  cases i with
  | tlbiRvaae1os t =>
    simp only [Instr.isUndefined, Bool.or_eq_true, beq_iff_eq] at h
    rcases h with hpresent | hel
    · simp only [exec, execTlbiRvaae1os, hpresent, if_true]
    · simp [exec, execTlbiRvaae1os, hel]
  | tlbiRvaae1osnxs t =>
    simp only [Instr.isUndefined, Bool.or_eq_true, beq_iff_eq] at h
    rcases h with (hpresent | hxs) | hel
    · simp only [exec, execTlbiRvaae1osnxs, hpresent, if_true]
    · simp [exec, execTlbiRvaae1osnxs, hxs]
    · simp [exec, execTlbiRvaae1osnxs, hel]

/-- Settles O28: each cause makes the instruction undefined. -/
theorem undefinedCauses : Obligations.UndefinedCauses := by
  refine fun s t => ⟨fun h => exec_of_isUndefined ?_, fun h => exec_of_isUndefined ?_⟩
  · rcases h with hrange | hos | hel
    · simp [Instr.isUndefined, present, hrange]
    · simp [Instr.isUndefined, present, hos]
    · simp [Instr.isUndefined, hel]
  · rcases h with hrange | hos | hxs | hel
    · simp [Instr.isUndefined, present, hrange]
    · simp [Instr.isUndefined, present, hos]
    · simp [Instr.isUndefined, hxs]
    · simp [Instr.isUndefined, hel]

/-- Settles O29, one of the causes of O28. -/
theorem nxsUndefinedWithoutFeatXs : Obligations.NxsUndefinedWithoutFeatXs :=
  fun s t hxs => (undefinedCauses s t).2 (.inr (.inr (.inl hxs)))

end Sys2Proof.Machine
end

section
/-! SUPPORT. The statements of 40_tlbi_rvaae1os.md: the extent and the bounds of the range, its alignment, and the cases
in which an operation guarantees nothing. -/

namespace Sys2Proof.Machine

/-! ### The extent of the range -/

/-- The granules (30_encoding.md R50): 4 to 64 KiB. -/
theorem Granule.size_bounds (g : Granule) : 2 ^ 12 ≤ g.size ∧ g.size ≤ 2 ^ 16 := by
  cases g <;> decide

/-- The step of a SCALE, in granules (40_tlbi_rvaae1os.md R72). -/
theorem rangeStep_bounds (scale : BitVec 2) :
    2 ∣ 2 ^ (5 * scale.toNat + 1) ∧ 2 ≤ 2 ^ (5 * scale.toNat + 1) ∧ 2 ^ (5 * scale.toNat + 1) ≤ 65536 := by
  revert scale
  decide

/-- The extent in granules is even, and at most 32 of the largest steps. -/
theorem rangeLen_in_granules (num : BitVec 5) (scale : BitVec 2) (g : Granule) :
    2 * g.size ∣ rangeLen num scale g ∧ 2 * g.size ≤ rangeLen num scale g
      ∧ rangeLen num scale g ≤ 2097152 * g.size := by
  obtain ⟨heven, -, hle⟩ := rangeStep_bounds scale
  have hsize : 0 < g.size := (Nat.two_pow_pos 12).trans_le g.size_bounds.1
  have hdvd : 2 * g.size ∣ rangeLen num scale g := Nat.mul_dvd_mul_right (heven.mul_left _) _
  have hpos : 0 < rangeLen num scale g := by unfold rangeLen; positivity
  exact ⟨hdvd, Nat.le_of_dvd hpos hdvd, Nat.mul_le_mul_right _ (Nat.mul_le_mul num.isLt hle)⟩

/-- The extent in bytes. -/
theorem rangeLen_bounds (num : BitVec 5) (scale : BitVec 2) (g : Granule) :
    0x2000 ≤ rangeLen num scale g ∧ rangeLen num scale g ≤ 2 ^ 37 := by
  obtain ⟨-, hlo, hhi⟩ := rangeLen_in_granules num scale g
  obtain ⟨hsize, hsize'⟩ := g.size_bounds
  omega

/-- Settles O16: the four steps, and the bounds of every one. -/
theorem rangeExtentInGranules : Obligations.RangeExtentInGranules := by
  intro num g
  refine ⟨rfl, rfl, rfl, rfl, fun scale => ?_, rfl, rfl⟩
  obtain ⟨heven, hlo, hhi⟩ := rangeLen_in_granules num scale g
  exact ⟨hlo, hhi, heven, rangeLen_bounds num scale g⟩

/-! ### The bounds of the range -/

/-- The start of an operand's range as a number (30_encoding.md R53). -/
theorem toNat_baseOf (cfg : Config) (ds : Bool) (d : XtFields) (g : Granule) :
    (baseOf cfg ds d g).toNat = d.baFld.toNat * 2 ^ baseShift (cfg.featLpa2 && ds) g
      + (if upperIsSign cfg.baseAddrUpper && d.baFld.msb
          then 2 ^ 64 - 2 ^ (baseShift (cfg.featLpa2 && ds) g + 37) else 0) :=
  toNat_baseAddr _ ((baseShift_bounds _ g).2.2.trans (by decide)) _

theorem two_pow_baseShift_le (b : Bool) (g : Granule) : 2 ^ baseShift b g ≤ 2 ^ 16 :=
  Nat.pow_le_pow_right Nat.two_pos (baseShift_bounds b g).2.2

/-- With the upper bits zero the start is the field at bit 16 at most. -/
theorem baseOf_lt_of_upperZero {cfg : Config} (h : cfg.baseAddrUpper = .zero) (ds : Bool) (d : XtFields) (g : Granule) :
    (baseOf cfg ds d g).toNat < 2 ^ 53 := by
  have hpow := two_pow_baseShift_le (cfg.featLpa2 && ds) g
  have hfield := Nat.mul_lt_mul_of_lt_of_le d.baFld.isLt hpow (Nat.two_pow_pos 16)
  rw [toNat_baseOf, h]
  simpa [upperIsSign] using hfield

/-- With the upper bits ones the start is in the top 2^52 bytes of the address space. -/
theorem le_baseOf_of_upperOnes {cfg : Config} (h : cfg.baseAddrUpper = .sign) (ds : Bool) {d : XtFields}
    (hmsb : d.baFld.msb = true) (g : Granule) : 2 ^ 64 - 2 ^ 52 ≤ (baseOf cfg ds d g).toNat := by
  have hpow := two_pow_baseShift_le (cfg.featLpa2 && ds) g
  have htop : 2 ^ 36 ≤ d.baFld.toNat := BitVec.le_toNat_of_msb_true hmsb
  have hfield := Nat.mul_le_mul_right (2 ^ baseShift (cfg.featLpa2 && ds) g) htop
  rw [toNat_baseOf, h, hmsb, Nat.pow_add]
  simp only [upperIsSign, Bool.and_true, if_true]
  omega

/-- Settles O17: the extent is at most 2^37 bytes, and the start is low or high as the upper bits are. -/
theorem rangeArithmeticLaws : Obligations.RangeArithmeticLaws := by
  intro cfg ds v r hr
  obtain ⟨g, -, rfl⟩ := granule_of_rangeOf hr
  obtain ⟨-, hlen⟩ := rangeLen_bounds (decodeXt v).num (decodeXt v).scale g
  refine ⟨by dsimp only; omega, rfl, fun hzero => ?_, fun hsign hmsb => ?_⟩
  · have hbase := baseOf_lt_of_upperZero hzero ds (decodeXt v) g
    exact ⟨hbase, by simp only [AddrRange.upper]; omega⟩
  · have hbase := le_baseOf_of_upperOnes hsign ds (d := decodeXt v) hmsb g
    refine ⟨hbase, fun e he => Bool.eq_false_iff.2 fun hoverlaps => ?_⟩
    obtain ⟨-, hreach⟩ := overlaps_iff.1 hoverlaps
    dsimp only at hreach
    omega

/-! ### Alignment -/

/-- Of a word that is a multiple of `2^lo`, the bits from `lo` up to `lo + n` are zero exactly when it is a multiple of
`2^(lo + n)`. -/
theorem extractLsb'_eq_zero_iff_dvd {w : Word} {lo : Nat} (n : Nat) (h : 2 ^ lo ∣ w.toNat) :
    w.extractLsb' lo n = 0#n ↔ 2 ^ (lo + n) ∣ w.toNat := by
  rw [← BitVec.toNat_inj, BitVec.extractLsb'_toNat, BitVec.toNat_ofNat, Nat.zero_mod, Nat.shiftRight_eq_div_pow,
    ← Nat.dvd_iff_mod_eq_zero, Nat.dvd_div_iff_mul_dvd h, Nat.pow_add]

/-- The size of a level 2 block (20_memory.md R36). -/
def Granule.level2Block : Granule → Nat
  | .g4K => 2 ^ 21
  | .g16K => 2 ^ 25
  | .g64K => 2 ^ 29

/-- The slice of R76 is the test for a multiple of the level 2 block. -/
theorem level2Misaligned_iff {g : Granule} {base : Word} (h : 2 ^ g.shift ∣ base.toNat) :
    level2Misaligned g base = true ↔ ¬ g.level2Block ∣ base.toNat := by
  cases g with
  | g4K => exact bne_iff_ne.trans (extractLsb'_eq_zero_iff_dvd 9 h).not
  | g16K => exact bne_iff_ne.trans (extractLsb'_eq_zero_iff_dvd 11 h).not
  | g64K => exact bne_iff_ne.trans (extractLsb'_eq_zero_iff_dvd 13 h).not

/-- Every start is a multiple of the granule. -/
theorem granule_dvd_baseOf (cfg : Config) (ds : Bool) (d : XtFields) (g : Granule) :
    2 ^ g.shift ∣ (baseOf cfg ds d g).toNat := by
  refine (Nat.pow_dvd_pow 2 (baseShift_bounds (cfg.featLpa2 && ds) g).1).trans ?_
  rw [toNat_baseOf]
  refine Nat.dvd_add (Nat.dvd_mul_left _ _) ?_
  split
  · have hle := (baseShift_bounds (cfg.featLpa2 && ds) g).2.2
    exact Nat.dvd_sub (Nat.pow_dvd_pow 2 (by omega)) (Nat.pow_dvd_pow 2 (by omega))
  · exact Nat.dvd_zero _

/-- Settles O18: every start is a multiple of the granule, so the slice tests for the block. -/
theorem unpredictableIffNotBlockAligned : Obligations.UnpredictableIffNotBlockAligned := by
  intro cfg ds v g r ttl hg hr
  obtain rfl := Option.some.inj ((rangeOf_of_granule (d := decodeXt v) hg).symm.trans hr)
  rw [unpredictable, Bool.and_eq_true, beq_iff_eq, level2Misaligned_iff (granule_dvd_baseOf cfg ds (decodeXt v) g)]
  cases g <;> rfl

/-! ### What is guaranteed -/

/-- The reserved TTL value is replaced by `0b00`, so `0b10` stands where it stood. -/
theorem effectiveTtl_eq_two_iff {cfg : Config} {d : XtFields} : effectiveTtl cfg d = 0b10#2 ↔ d.ttl = 0b10#2 := by
  rw [effectiveTtl]
  split
  · rename_i h
    simp only [Bool.and_eq_true, ttl01Reserved_iff] at h
    obtain ⟨⟨-, -, httl⟩, -⟩ := h
    simp [httl]
  · rfl

/-- What an operand with a granule does not guarantee: the cases (a) and (c) to (f). -/
theorem guaranteedOf_eq_false_iff_of_granule {cfg : Config} {ds agreed : Bool} {d : XtFields} {g : Granule}
    (h : granuleOfTg d.tg = some g) :
    guaranteedOf cfg ds agreed d = false ↔
      (d.ttl = 0b10#2 ∧ level2Misaligned g (baseOf cfg ds d g) = true)
      ∨ (ttl01Reserved cfg d = true ∧ cfg.ttl01At16K = .noGuarantee)
      ∨ agreed = false
      ∨ (effectiveTtl cfg d = 0b01#2 ∧ cfg.ttl01Misaligned = .noGuarantee
          ∧ level1Misaligned g (baseOf cfg ds d g) = true)
      ∨ (d.baFld.msb = true ∧ cfg.baseAddrUpper = .leftOpen) := by
  rw [guaranteedOf_of_granule h, unpredictable, ← effectiveTtl_eq_two_iff (cfg := cfg)]
  simp only [Bool.and_eq_false_iff, Bool.not_eq_false', Bool.and_eq_true, beq_iff_eq, or_assoc, and_assoc]

/-- Where prose and pseudocode differ nothing is guaranteed (40_tlbi_rvaae1os.md R77 (d)). -/
theorem guaranteedOf_of_not_agreed (cfg : Config) (ds : Bool) (d : XtFields) : guaranteedOf cfg ds false d = false := by
  cases hg : granuleOfTg d.tg with
  | none => exact guaranteedOf_of_reserved hg
  | some g => simp [guaranteedOf_of_granule hg]

/-- The one granule and range of an operand that has them. -/
theorem exists_granule_range_iff {cfg : Config} {ds : Bool} {v : Word} {g : Granule}
    (h : granuleOfTg (v.extractLsb' 46 2) = some g) {P : Granule → AddrRange → Prop} :
    (∃ g r, granuleOfTg (v.extractLsb' 46 2) = some g ∧ rangeOf cfg ds (decodeXt v) = some r ∧ P g r)
      ↔ P g { base := baseOf cfg ds (decodeXt v) g, len := rangeLen (decodeXt v).num (decodeXt v).scale g } := by
  simp [rangeOf_of_granule (d := decodeXt v) h, h]

/-- Settles O19: the reserved TG is case (b), and the other cases are about an operand with a granule. -/
theorem guaranteedExceptInSixCases : Obligations.GuaranteedExceptInSixCases := by
  intro cfg ds agreed v
  by_cases htg : v.extractLsb' 46 2 = 0b00#2
  · have hreserved : granuleOfTg (decodeXt v).tg = none := congrArg granuleOfTg htg
    exact iff_of_true (guaranteedOf_of_reserved hreserved) (.inr (.inl htg))
  · obtain ⟨g, hg⟩ := granuleOfTg_of_ne htg
    rw [guaranteedOf_eq_false_iff_of_granule (d := decodeXt v) hg, exists_granule_range_iff hg,
      exists_granule_range_iff hg, or_iff_right htg, ttl01Reserved_iff, and_assoc, and_assoc]
    cases g <;> simp only [level2Misaligned, level1Misaligned, bne_iff_ne] <;> rfl

end Sys2Proof.Machine
end

section
/-! SUPPORT. The statements of 40_tlbi_rvaae1os.md: the operation each instruction issues at each Exception level, and
the frame of both. -/

namespace Sys2Proof.Machine

/-! ### The calls of the two instructions -/

/-- The `attr` argument of an instruction at EL1 (40_tlbi_rvaae1os.md R60, R61, R82). -/
def Instr.attrAtEl1 (s : State) : Instr → TlbiAttr
  | .tlbiRvaae1os _ => s.plainAttrAtEl1
  | .tlbiRvaae1osnxs _ => .excludeXs

/-- The `attr` argument of an instruction at EL2 and EL3 (40_tlbi_rvaae1os.md R60, R61). -/
def Instr.attrAboveEl1 : Instr → TlbiAttr
  | .tlbiRvaae1os _ => .allAttr
  | .tlbiRvaae1osnxs _ => .excludeXs

/-- At EL1 an instruction that is there and not trapped is the call of R63. -/
theorem exec_at_el1 {i : Instr} {s : State} (hdef : Instr.isUndefined s i = false) (hel : s.pe.pstate.el = .el1)
    (htrap : Instr.trapped s i = false) : exec i s = tlbiAtEl1 (Instr.attrAtEl1 s i) (Instr.rt i) s := by
  cases i with
  | tlbiRvaae1os t =>
    simp only [Instr.isUndefined, Bool.or_eq_false_iff] at hdef
    obtain ⟨hpresent, -⟩ := hdef
    simp only [Instr.trapped] at htrap
    simp [exec, execTlbiRvaae1os, hpresent, hel, htrap, Instr.attrAtEl1, Instr.rt]
  | tlbiRvaae1osnxs t =>
    simp only [Instr.isUndefined, Bool.or_eq_false_iff] at hdef
    obtain ⟨⟨hpresent, hxs⟩, -⟩ := hdef
    simp only [Instr.trapped] at htrap
    simp [exec, execTlbiRvaae1osnxs, hpresent, hxs, hel, htrap, Instr.attrAtEl1, Instr.rt]

/-- At EL2 and EL3 an instruction that is there is the call of R63 and R64. -/
theorem exec_above_el1 {i : Instr} {s : State} (hdef : Instr.isUndefined s i = false)
    (hel : s.pe.pstate.el = .el2 ∨ s.pe.pstate.el = .el3) :
    exec i s = tlbiAtEl2El3 (Instr.attrAboveEl1 i) (Instr.rt i) s := by
  cases i with
  | tlbiRvaae1os t =>
    simp only [Instr.isUndefined, Bool.or_eq_false_iff] at hdef
    obtain ⟨hpresent, -⟩ := hdef
    rcases hel with hel | hel <;> simp [exec, execTlbiRvaae1os, hpresent, hel, Instr.attrAboveEl1, Instr.rt]
  | tlbiRvaae1osnxs t =>
    simp only [Instr.isUndefined, Bool.or_eq_false_iff] at hdef
    obtain ⟨⟨hpresent, hxs⟩, -⟩ := hdef
    rcases hel with hel | hel <;> simp [exec, execTlbiRvaae1osnxs, hpresent, hxs, hel, Instr.attrAboveEl1, Instr.rt]

theorem isUndefined_plain_eq_false {s : State} (t : Nat) (hrange : s.cfg.featTlbirange = true)
    (hos : s.cfg.featTlbios = true) (hel : s.pe.pstate.el ≠ .el0) :
    Instr.isUndefined s (.tlbiRvaae1os t) = false := by
  simp [Instr.isUndefined, present, hrange, hos, hel]

theorem isUndefined_nxs_eq_false {s : State} (t : Nat) (hrange : s.cfg.featTlbirange = true)
    (hos : s.cfg.featTlbios = true) (hxs : s.cfg.featXs = true) (hel : s.pe.pstate.el ≠ .el0) :
    Instr.isUndefined s (.tlbiRvaae1osnxs t) = false := by
  simp [Instr.isUndefined, present, hrange, hos, hxs, hel]

theorem el_ne_el0_of_above_el1 {s : State} (h : s.pe.pstate.el = .el2 ∨ s.pe.pstate.el = .el3) :
    s.pe.pstate.el ≠ .el0 := by
  rcases h with h | h <;> simp [h]

/-! ### What is issued -/

/-- At EL1 either instruction issues an EL1&0 operation with `VMID[]` (40_tlbi_rvaae1os.md R63). -/
theorem exec_issues_at_el1 {i : Instr} {s : State} {sec : SecurityState} (hdef : Instr.isUndefined s i = false)
    (hel : s.pe.pstate.el = .el1) (htrap : Instr.trapped s i = false) (hsec : s.secState = some sec)
    (hxt : s.operandAccepted (s.readX (Instr.rt i))) :
    ∃ op, exec i s = .next (s.afterIssue op) ∧ op.IssuedBy s (s.readX (Instr.rt i)) true
      ∧ op.security = sec ∧ op.regime = .el10 ∧ op.vmid = s.vmidArg ∧ op.attr = Instr.attrAtEl1 s i := by
  rw [exec_at_el1 hdef hel htrap, tlbiAtEl1, tlbiRvaa_of_accepted hsec hxt]
  exact ⟨_, rfl, issued_buildOp_issuedBy .., rfl, rfl, rfl, rfl⟩

theorem State.hostRegime_iff {s : State} : s.hostRegime = true ↔ s.hcr.e2h = true ∧ s.hcr.tge = true := by
  simp [State.hostRegime]

/-- At EL2 and EL3 either instruction issues an operation of the regime that `HCR_EL2.{E2H, TGE}` selects
(40_tlbi_rvaae1os.md R63 to R65). -/
theorem exec_issues_above_el1 {i : Instr} {s : State} {sec : SecurityState} (hdef : Instr.isUndefined s i = false)
    (hel : s.pe.pstate.el = .el2 ∨ s.pe.pstate.el = .el3) (hsec : s.secState = some sec)
    (hxt : s.operandAccepted (s.readX (Instr.rt i))) :
    ∃ op, exec i s = .next (s.afterIssue op) ∧ op.security = sec ∧ op.attr = Instr.attrAboveEl1 i
      ∧ (s.hcr.e2h = true ∧ s.hcr.tge = true →
          op.regime = .el20 ∧ op.vmid = none
          ∧ op.IssuedBy s (s.readX (Instr.rt i)) (s.pe.pstate.el != .el3 || s.el2Enabled))
      ∧ (¬ (s.hcr.e2h = true ∧ s.hcr.tge = true) →
          op.regime = .el10 ∧ op.vmid = s.vmidArg ∧ op.IssuedBy s (s.readX (Instr.rt i)) true) := by
  rw [exec_above_el1 hdef hel, tlbiAtEl2El3, ← State.hostRegime_iff]
  split
  · rename_i hhost
    rw [tlbiRvaa_of_accepted hsec hxt]
    exact ⟨_, rfl, rfl, rfl, fun _ => ⟨rfl, rfl, issued_buildOp_issuedBy ..⟩, fun h => absurd hhost h⟩
  · rename_i hhost
    rw [tlbiRvaa_of_accepted hsec hxt]
    exact ⟨_, rfl, rfl, rfl, fun h => absurd h hhost, fun _ => ⟨rfl, rfl, issued_buildOp_issuedBy ..⟩⟩

/-- `plainAttrAtEl1` as the rule gives it (40_tlbi_rvaae1os.md R60). -/
theorem State.plainAttrAtEl1_eq (s : State) :
    s.plainAttrAtEl1 = if s.cfg.featXs = true ∧ s.cfg.featHcx = true ∧ s.hcrxEnabled = true
      ∧ s.pe.hcrxEl2.fnXs = true then .excludeXs else .allAttr := by
  simp [State.plainAttrAtEl1, and_assoc]

/-- Settles O24: the plain instruction at EL1. -/
theorem plainCompletesAtEl1 : Obligations.PlainCompletesAtEl1 := by
  intro s t sec hrange hos hel h1 h2 h3 hsec hxt
  rw [← State.plainAttrAtEl1_eq]
  exact exec_issues_at_el1 (i := .tlbiRvaae1os t) (isUndefined_plain_eq_false t hrange hos (by simp [hel])) hel
    (by simp [Instr.trapped, h1, h2, h3]) hsec hxt

/-- Settles O25: the plain instruction at EL2 and EL3. -/
theorem plainCompletesAtEl2AndEl3 : Obligations.PlainCompletesAtEl2AndEl3 :=
  fun _ t _ hrange hos hel hsec hxt =>
    exec_issues_above_el1 (isUndefined_plain_eq_false t hrange hos (el_ne_el0_of_above_el1 hel)) hel hsec hxt

/-- Settles O26: the nXS instruction at EL1. -/
theorem nxsCompletesAtEl1 : Obligations.NxsCompletesAtEl1 :=
  fun _ t _ hrange hos hxs hel h1 h2 h3n hsec hxt =>
    exec_issues_at_el1 (i := .tlbiRvaae1osnxs t) (isUndefined_nxs_eq_false t hrange hos hxs (by simp [hel])) hel
      (by simp [Instr.trapped, h1, h2, h3n]) hsec hxt

/-- Settles O27: the nXS instruction at EL2 and EL3. -/
theorem nxsCompletesAtEl2AndEl3 : Obligations.NxsCompletesAtEl2AndEl3 :=
  fun _ t _ hrange hos hxs hel hsec hxt =>
    exec_issues_above_el1 (isUndefined_nxs_eq_false t hrange hos hxs (el_ne_el0_of_above_el1 hel)) hel hsec hxt

/-! ### The case in which prose and pseudocode differ -/

/-- An operation issued without a guarantee requires nothing. -/
theorem TlbiOp.IssuedBy.requires_nothing {op : TlbiOp} {s : State} {xt : Word} {agreed : Bool}
    (h : op.IssuedBy s xt agreed) (hg : op.guaranteed = false) : op.inScope = [] ∧ op.todo = [] := by
  have hscope : op.inScope = [] := List.eq_nil_iff_forall_not_mem.2 fun p hp => by
    obtain ⟨-, -, hreq⟩ := (h.inScope p).1 hp
    simp [required, hg] at hreq
  exact ⟨hscope, h.todo.trans hscope⟩

/-- At EL3 with EL2 not enabled and `HCR_EL2.{E2H, TGE} == {1, 1}` either instruction issues an EL2&0 operation that
requires nothing (40_tlbi_rvaae1os.md R65). -/
theorem exec_issues_nothing_required {i : Instr} {s : State} {sec : SecurityState}
    (hdef : Instr.isUndefined s i = false) (hel : s.pe.pstate.el = .el3) (hhost : s.hcr.e2h = true ∧ s.hcr.tge = true)
    (hen : s.el2Enabled = false) (hsec : s.secState = some sec) (hxt : s.operandAccepted (s.readX (Instr.rt i))) :
    ∃ op, exec i s = .next (s.afterIssue op) ∧ op.regime = .el20 ∧ op.vmid = none
      ∧ op.attr = Instr.attrAboveEl1 i ∧ op.guaranteed = false ∧ op.inScope = [] ∧ op.todo = [] := by
  obtain ⟨op, he, -, hattr, hcall, -⟩ := exec_issues_above_el1 hdef (.inr hel) hsec hxt
  obtain ⟨hregime, hvmid, hissued⟩ := hcall hhost
  have hdisagree : (s.pe.pstate.el != .el3 || s.el2Enabled) = false := by simp [hel, hen]
  have hg : op.guaranteed = false := by
    rw [hissued.guaranteed, hdisagree]
    exact guaranteedOf_of_not_agreed ..
  exact ⟨op, he, hregime, hvmid, hattr, hg, hissued.requires_nothing hg⟩

/-- Settles O33: the two flags are read as set, since EL2 is implemented. -/
theorem el3WithEl2DisabledGuaranteesNothing : Obligations.El3WithEl2DisabledGuaranteesNothing := by
  intro s t sec hrange hos hxs hel hel2 he2h htge hen hsec hxt
  have hel0 : s.pe.pstate.el ≠ .el0 := el_ne_el0_of_above_el1 (.inr hel)
  have hhost : s.hcr.e2h = true ∧ s.hcr.tge = true := by rw [State.hcr_of_haveEl2 hel2]; exact ⟨he2h, htge⟩
  exact ⟨exec_issues_nothing_required (isUndefined_plain_eq_false t hrange hos hel0) hel hhost hen hsec hxt,
    exec_issues_nothing_required (isUndefined_nxs_eq_false t hrange hos hxs hel0) hel hhost hen hsec hxt⟩

/-! ### The frame -/

/-- Settles O36: an exception adds no operation and writes no register, and issuing changes pc alone of the PE. -/
theorem instructionFrame : Obligations.InstructionFrame := by
  intro i s u he
  obtain ⟨hcfg, hself, hothers, hmem, htlb, haccesses, hschedule⟩ := exec_frame he
  refine ⟨fun a => by rw [hmem], htlb, haccesses, hothers, hself, hcfg, hschedule, ?_⟩
  rcases exec_pending_cases he with ⟨hpending, -⟩ | ⟨_, _, _, _, _, _, rfl⟩
  · exact .inr ⟨hpending, exec_sameRegisters he⟩
  · exact .inl ⟨_, rfl, rfl⟩

end Sys2Proof.Machine
end

section
/-! SUPPORT. The statements of 40_tlbi_rvaae1os.md: the required set and its conjuncts. -/

namespace Sys2Proof.Machine

/-! ### Levels -/

/-- `LevelMatch64` for a TTL hint that names a level (40_tlbi_rvaae1os.md R74). -/
theorem levelMatch64_iff_of_ne {ttl : BitVec 2} {e : TLBEntry} (h : ttl ≠ 0b00#2) :
    levelMatch64 ttl e = true ↔ (e.leaf = false ∧ e.level < ttl.toNat) ∨ (e.leaf = true ∧ e.level = ttl.toNat) := by
  cases hleaf : e.leaf <;> simp [levelMatch64, h, hleaf]

/-- Settles O41: without a hint every level matches, and each hint names its level. -/
theorem levelMatchOf64BitEntries : Obligations.LevelMatchOf64BitEntries := by
  intro cfg e hwidth
  have hmatch : ∀ ttl, levelMatch cfg ttl e = levelMatch64 ttl e := fun ttl => by simp only [levelMatch, hwidth]
  refine ⟨by rw [hmatch]; rfl, ?_, ?_, ?_⟩ <;> rw [hmatch] <;> exact levelMatch64_iff_of_ne (by decide)

/-- Settles O42: an unpredictable range has TTL `0b10`. -/
theorem levelMatchOf128BitEntries : Obligations.LevelMatchOf128BitEntries := by
  intro cfg e ttl hwidth
  have hiff : levelMatch cfg ttl e = true ↔ cfg.featD128 = true ∧ ttl = 0b00#2 := by
    simp [levelMatch, hwidth, levelMatch128]
  refine ⟨hiff, fun g base hunpredictable => Bool.eq_false_iff.2 fun h => ?_⟩
  obtain ⟨httl, -⟩ : ttl = 0b10#2 ∧ _ := by simpa [unpredictable] using hunpredictable
  obtain ⟨-, httl'⟩ := hiff.1 h
  exact absurd (httl.symm.trans httl') (by decide)

/-! ### Addresses -/

/-- Settles O44: the address shared is the larger of the two lower ends. -/
theorem overlapIsSharedAddress : Obligations.OverlapIsSharedAddress := by
  intro e r hentry hrange
  refine ⟨overlaps_iff, overlaps_iff.trans ⟨fun ⟨hlo, hhi⟩ => ?_, ?_⟩⟩
  · exact ⟨max e.vaLo.toNat r.base.toNat, by omega, by omega, by omega, by omega⟩
  · rintro ⟨va, hlo, hhi, hbase, hupper⟩
    exact ⟨hlo.trans_lt hupper, hbase.trans hhi⟩

/-! ### Membership -/

/-- The issuer's domain (60_exceptions.md R101). -/
theorem inOsh_iff {cfg : Config} {n : Nat} {a : Agent} :
    inOsh cfg n a = true ↔ a = .pe n ∨ (a ∈ cfg.agents ∧ (n, a) ∈ cfg.osh) := by
  simp [inOsh]

/-- `ContextMatch` (40_tlbi_rvaae1os.md R79). -/
theorem contextMatch_iff {s : State} {op : TlbiOp} {a : Agent} {e : TLBEntry} :
    contextMatch s op a e = true ↔ e.security = op.security
      ∧ ((op.regime = .el10 ∧ e.regime = .el10 ∧ (op.vmid = none ∨ e.vmid = op.vmid))
          ∨ (op.regime = .el20 ∧ e.regime = .el20))
      ∧ remoteRequired s op a e = true := by
  simp [contextMatch, and_assoc]

/-- `Required` (40_tlbi_rvaae1os.md R78): an operation without a range, that of the reserved TG, requires nothing. -/
theorem required_iff {s : State} {op : TlbiOp} {a : Agent} {e : TLBEntry} :
    required s op a e = true ↔ op.guaranteed = true ∧ e.stage1 = true ∧ levelMatch s.cfg op.ttl e = true
      ∧ granuleOfTg op.tg = some e.granule ∧ (∃ r, op.range = some r ∧ overlaps e r = true)
      ∧ contextMatch s op a e = true := by
  cases hrange : op.range <;> simp [required, hrange, and_assoc, eq_comm (a := some e.granule)]

/-- Settles O43: the test of each entry, taken apart into its conjuncts. -/
theorem requiredSetMembership : Obligations.RequiredSetMembership := by
  intro s op a e
  refine ⟨?_, inOsh_iff⟩
  simp only [mem_requiredSet, required_iff, contextMatch_iff, overlaps_iff]

/-- Settles O45: no conjunct of `required` reads one of the three fields. -/
theorem anyAsidGlobalOrNot : Obligations.AnyAsidGlobalOrNot :=
  fun _ _ _ _ _ _ _ => rfl

end Sys2Proof.Machine
end

section
/-! SUPPORT. The statements of 40_tlbi_rvaae1os.md: the removal step, and that the removal agents empty every `todo`. -/

namespace Sys2Proof.Machine

/-! ### The removal step -/

theorem State.removeMove_of_mem {s : State} {k : Nat} {p : Cached} {op : TlbiOp} (hop : s.pending[k]? = some op)
    (hp : p ∈ op.todo) : s.removeMove k p = s.evict p := by
  simp [State.removeMove, hop, hp]

theorem State.removeMove_of_notMem {s : State} {k : Nat} {p : Cached} {op : TlbiOp} (hop : s.pending[k]? = some op)
    (hp : p ∉ op.todo) : s.removeMove k p = s := by
  simp [State.removeMove, hop, hp]

/-- A scheduled removal is the removal move of its entry. -/
theorem step_scheduled_remove {s : State} {k : Nat} {p : Cached} {ms : List Move}
    (hs : s.schedule = .remove k p.1 p.2 :: ms) : step s = .next ((s.setSchedule ms).removeMove k p) := by
  simp [step, hs, State.agentMove]

/-- An eviction leaves every pending operation in its place, the entry gone from its `todo`. -/
theorem State.evict_pending_getElem? {s : State} {j : Nat} {o : TlbiOp} (p : Cached) (ho : s.pending[j]? = some o) :
    (s.evict p).pending[j]? = some { o with todo := o.todo.filter (· != p) } := by
  simp [ho]

/-- Settles O50: an enabled removal evicts its entry. -/
theorem removalStep : Obligations.RemovalStep := by
  intro s k p op ms hs hop hp
  have hmove : (s.setSchedule ms).removeMove k p = (s.setSchedule ms).evict p := State.removeMove_of_mem hop hp
  refine ⟨(s.setSchedule ms).evict p, (step_scheduled_remove hs).trans (congrArg _ hmove), rfl,
    fun q => State.mem_evict_tlb, rfl, rfl, rfl, rfl, rfl, by simp, fun j o ho => ?_⟩
  have hstays := State.evict_pending_getElem? (s := s.setSchedule ms) p ho
  exact ⟨_, hstays, rfl, rfl, rfl, fun q => by simp [List.mem_filter]⟩

/-! ### Scheduled removals -/

/-- What is left after the removal move of `p`, enabled or not: `p` is not in the operation's `todo`, and left the TLB
if it was. -/
theorem State.removeMove_effect {s : State} {k : Nat} {op : TlbiOp} (p : Cached) (hop : s.pending[k]? = some op) :
    (s.removeMove k p).pending[k]? = some { op with todo := op.todo.filter (· != p) }
      ∧ ∀ q ∈ (s.removeMove k p).tlb, q ∈ s.tlb ∧ (p ∈ op.todo → q ≠ p) := by
  by_cases hp : p ∈ op.todo
  · rw [State.removeMove_of_mem hop hp]
    exact ⟨State.evict_pending_getElem? p hop, fun q hq => (State.mem_evict_tlb.1 hq).imp id fun hne _ => hne⟩
  · have hfilter : op.todo.filter (· != p) = op.todo :=
      List.filter_eq_self.2 fun q hq => by simpa using ne_of_mem_of_not_mem hq hp
    rw [State.removeMove_of_notMem hop hp, hfilter]
    exact ⟨hop, fun q hq => ⟨hq, fun h => absurd h hp⟩⟩

/-- A schedule of removals that names everything an operation has still to remove, in any order and any number of times,
empties its `todo` and takes these entries out of the TLBs. -/
theorem run_removalMoves {s : State} {k : Nat} {op : TlbiOp} {l : List Cached} {ms : List Move}
    (hop : s.pending[k]? = some op) (hs : s.schedule = removalMoves k l ++ ms) (hl : ∀ p ∈ op.todo, p ∈ l) :
    ∃ u, Host.Core.run Sys2Proof.core l.length s = .next u ∧ u.schedule = ms
      ∧ (∃ o, u.pending[k]? = some o ∧ o.todo = [] ∧ o.inScope = op.inScope)
      ∧ (∀ p ∈ u.tlb, p ∈ s.tlb) ∧ ∀ p ∈ op.todo, p ∉ u.tlb := by
  induction l generalizing s op with
  | nil =>
    have htodo : op.todo = [] := List.eq_nil_iff_forall_not_mem.2 fun p hp => List.not_mem_nil (hl p hp)
    exact ⟨s, rfl, hs, ⟨op, hop, htodo, rfl⟩, fun _ h => h, by simp [htodo]⟩
  | cons p l ih =>
    have hstep := step_scheduled_remove (ms := removalMoves k l ++ ms) hs
    obtain ⟨hop', htlb'⟩ := State.removeMove_effect (s := s.setSchedule (removalMoves k l ++ ms)) p hop
    obtain ⟨u, hrun, hms, hdone, htlb, hgone⟩ := ih hop' (by rw [step_schedule hstep, hs]; rfl) fun q hq => by
      obtain ⟨hq, hne⟩ := List.mem_filter.1 hq
      exact (List.mem_cons.1 (hl q hq)).resolve_left (by simpa using hne)
    refine ⟨u, (run_succ_of_next hstep).trans hrun, hms, hdone, fun q hq => (htlb' q (htlb q hq)).1, fun q hq hu => ?_⟩
    by_cases hqp : q = p
    · exact (htlb' q (htlb q hu)).2 (hqp ▸ hq) hqp
    · exact hgone q (List.mem_filter.2 ⟨hq, by simpa using hqp⟩) hu

/-! ### Removals of the agents' own accord -/

/-- How many entries the pending operations have still to remove, all together. -/
def State.removalsLeft (s : State) : Nat := (s.pending.map fun op => op.todo.length).sum

/-- Evicting an entry that is still to be removed leaves fewer to remove. -/
theorem State.removalsLeft_evict_lt {s : State} {p : Cached} {op : TlbiOp} (hop : op ∈ s.pending) (hp : p ∈ op.todo) :
    (s.evict p).removalsLeft < s.removalsLeft := by
  rw [State.removalsLeft, State.removalsLeft, State.evict_pending, List.map_map]
  exact List.sum_lt_sum _ _ (fun o _ => List.length_filter_le _ _)
    ⟨op, hop, List.length_filter_lt_length_iff_exists.2 ⟨p, hp, by simp⟩⟩

/-- With nothing scheduled and a removal still to be done, the step is one (log 9). -/
theorem step_own_removal {s : State} (hs : s.schedule = []) (h : ¬ ∀ op ∈ s.pending, op.todo = []) :
    ∃ p, step s = .next (s.evict p) ∧ (s.evict p).removalsLeft < s.removalsLeft := by
  rcases s.ownMove_cases with ⟨k, op, p, hop, hp, hm⟩ | ⟨hnone, -⟩ | ⟨hnone, -⟩
  · have hmove : s.agentMove (.remove k p.1 p.2) = s.evict p := State.removeMove_of_mem hop hp
    exact ⟨p, hmove ▸ step_of_ownMove hs hm, State.removalsLeft_evict_lt (List.mem_of_getElem? hop) hp⟩
  · exact absurd hnone h
  · exact absurd (fun op hop => (hnone op hop).1) h

/-- With nothing scheduled the agents' own moves empty every `todo`, and change the TLBs and the `todo`s only. -/
theorem run_own_removals {s : State} (hs : s.schedule = []) :
    ∃ k u, Host.Core.run Sys2Proof.core k s = .next u ∧ (∀ op ∈ u.pending, op.todo = []) ∧ u.schedule = []
      ∧ u.pe = s.pe ∧ u.others = s.others ∧ u.mem = s.mem ∧ u.pending.length = s.pending.length := by
  induction hn : s.removalsLeft using Nat.strong_induction_on generalizing s with
  | _ n ih =>
    by_cases hnone : ∀ op ∈ s.pending, op.todo = []
    · exact ⟨0, s, rfl, hnone, hs, rfl, rfl, rfl, rfl⟩
    · obtain ⟨p, hstep, hlt⟩ := step_own_removal hs hnone
      obtain ⟨k, u, hrun, htodo, hsched, hpe, hothers, hmem, hlen⟩ := ih _ (hn ▸ hlt) (s := s.evict p) hs rfl
      exact ⟨k + 1, u, (run_succ_of_next hstep).trans hrun, htodo, hsched, hpe, hothers, hmem, by simpa using hlen⟩

/-! ### Infinite runs -/

/-- A finite run is the beginning of the infinite one. -/
theorem IsRun.run_eq {r : Nat → State} (hr : IsRun r) (k n : Nat) :
    Host.Core.run Sys2Proof.core k (r n) = .next (r (n + k)) := by
  induction k generalizing n with
  | zero => rfl
  | succ k ih => rw [run_succ_of_next (hr n), ih, Nat.add_right_comm, Nat.add_assoc]

/-- Every step uses up one move of the schedule. -/
theorem IsRun.schedule_eq_drop {r : Nat → State} (hr : IsRun r) (n k : Nat) :
    (r (n + k)).schedule = (r n).schedule.drop k := by
  induction k with
  | zero => rfl
  | succ k ih => rw [← Nat.add_assoc, step_schedule (hr (n + k)), ih, List.tail_drop]

/-- Once the schedule is used up the removals that are left are made. -/
theorem IsRun.todos_empty_later {r : Nat → State} (hr : IsRun r) (n : Nat) :
    ∃ k, n ≤ k ∧ ∀ op ∈ (r k).pending, op.todo = [] := by
  have hnil : (r (n + (r n).schedule.length)).schedule = [] := by rw [hr.schedule_eq_drop, List.drop_length]
  obtain ⟨k, u, hrun, htodo, -⟩ := run_own_removals hnil
  obtain rfl := Host.Outcome.next.inj ((hr.run_eq k _).symm.trans hrun)
  exact ⟨_, by omega, htodo⟩

/-- Where every `todo` is empty no removal is enabled. -/
theorem IsRun.weaklyFair {r : Nat → State} (hr : IsRun r) : WeaklyFair r := by
  intro p n
  obtain ⟨k, hk, htodo⟩ := hr.todos_empty_later n
  refine ⟨k, hk, ?_⟩
  rintro ⟨op, hop, hp⟩
  exact List.not_mem_nil (htodo op hop ▸ hp)

/-- Settles O52: the removals scheduled name the whole `todo`, each own move leaves fewer removals, and every schedule is
finite. -/
theorem removalAgentEmptiesTodo : Obligations.RemovalAgentEmptiesTodo := by
  refine ⟨fun s k op ms hop hs => ?_, fun s hs => run_own_removals hs,
    fun r hr => ⟨hr.weaklyFair, hr.todos_empty_later⟩⟩
  obtain ⟨u, hrun, hms, hdone, -, hgone⟩ := run_removalMoves hop hs fun _ hp => hp
  exact ⟨u, hrun, hms, hdone, hgone⟩

end Sys2Proof.Machine
end

section
/-! SUPPORT. The statements of 60_exceptions.md: when an instruction is trapped, what each Exception level can give, and
what each `TrapEntry` does. -/

namespace Sys2Proof.Machine

/-! ### The traps of EL1 -/

theorem State.trapT1_iff {s : State} : s.trapT1 = true ↔ s.el2Enabled = true ∧ s.hcr.ttlb = true := by
  simp [State.trapT1]

theorem State.trapT2_iff {s : State} : s.trapT2 = true ↔ s.el2Enabled = true ∧ s.hcr.ttlbos = true := by
  simp [State.trapT2]

/-- The fine-grained trap of the plain variant (60_exceptions.md R92). -/
theorem State.trapT3_iff {s : State} :
    s.trapT3 = true ↔ s.el2Enabled = true ∧ s.cfg.featFgt = true
      ∧ (s.cfg.haveEl3 = false ∨ s.pe.scrEl3.fgtEn = true) ∧ s.pe.hfgitrEl2.tlbirvaae1os = true := by
  simp [State.trapT3, and_assoc]

/-- The fine-grained trap of the nXS variant (60_exceptions.md R93). -/
theorem State.trapT3n_iff {s : State} :
    s.trapT3n = true ↔ s.el2Enabled = true ∧ s.cfg.featFgt = true
      ∧ (s.cfg.haveEl3 = false ∨ s.pe.scrEl3.fgtEn = true)
      ∧ s.cfg.featHcx = true ∧ (s.hcrxEnabled = false ∨ s.pe.hcrxEl2.fgtNxs = false)
      ∧ s.pe.hfgitrEl2.tlbirvaae1os = true := by
  simp [State.trapT3n, and_assoc]

/-- At EL1 an instruction that is there is trapped, with its word (60_exceptions.md R91), where one of its three
conditions holds, and is the call of R63 where none does. -/
theorem exec_at_el1_traps_or_calls {i : Instr} {s : State} {w : InstrWord} {c1 c2 c3 : Bool}
    (hdef : Instr.isUndefined s i = false) (hel : s.pe.pstate.el = .el1) (hword : encode i = w)
    (hcond : Instr.trapped s i = (c1 || c2 || c3)) :
    (c1 = true ∨ c2 = true ∨ c3 = true →
      exec i s = .next (s.takeException (.systemAccessTrap .el2 0x18 s.pe.pc w)))
    ∧ (¬ (c1 = true ∨ c2 = true ∨ c3 = true) →
      c1 = false ∧ c2 = false ∧ c3 = false ∧ exec i s = tlbiAtEl1 (Instr.attrAtEl1 s i) (Instr.rt i) s) := by
  refine ⟨fun h => ?_, fun h => ?_⟩
  · have htrap : Instr.trapped s i = true := by simpa [hcond, or_assoc] using h
    rw [exec_of_trapped hdef hel htrap, State.raiseSystemAccessTrap, hword]
  · simp only [not_or, Bool.not_eq_true] at h
    obtain ⟨h1, h2, h3⟩ := h
    exact ⟨h1, h2, h3, exec_at_el1 hdef hel (by simp [hcond, h1, h2, h3])⟩

/-- Settles O30: the three conditions of the plain variant. -/
theorem plainTrapsAtEl1 : Obligations.PlainTrapsAtEl1 := by
  intro s t ht hrange hos hel
  rw [← State.trapT1_iff, ← State.trapT2_iff, ← State.trapT3_iff]
  exact exec_at_el1_traps_or_calls (isUndefined_plain_eq_false t hrange hos (by simp [hel])) hel
    (plainWordMatchAndMask.2 t ht).1 rfl

/-- Settles O31: the three conditions of the nXS variant. -/
theorem nxsTrapsAtEl1 : Obligations.NxsTrapsAtEl1 := by
  intro s t ht hrange hos hxs hel
  rw [← State.trapT1_iff, ← State.trapT2_iff, ← State.trapT3n_iff]
  exact exec_at_el1_traps_or_calls (isUndefined_nxs_eq_false t hrange hos hxs (by simp [hel])) hel
    (nxsWordMatchAndMask.2 t ht).1 rfl

/-! ### What each Exception level can give -/

theorem isUndefined_eq_false (i : Instr) {s : State} (hrange : s.cfg.featTlbirange = true)
    (hos : s.cfg.featTlbios = true) (hxs : s.cfg.featXs = true) (hel : s.pe.pstate.el ≠ .el0) :
    Instr.isUndefined s i = false := by
  cases i with
  | tlbiRvaae1os t => exact isUndefined_plain_eq_false t hrange hos hel
  | tlbiRvaae1osnxs t => exact isUndefined_nxs_eq_false t hrange hos hxs hel

/-- Settles O35: EL0 makes an instruction undefined, only EL1 traps, and above EL1 an instruction that is there issues. -/
theorem outcomesByExceptionLevel : Obligations.OutcomesByExceptionLevel := by
  intro i s u he
  rcases exec_next_cases he with ⟨hundef, rfl⟩ | ⟨-, hel, htrap, rfl⟩ | ⟨-, hel0, _, _, _, _, _, _, -, rfl⟩
  · refine ⟨fun _ => rfl, fun _ => .inl rfl, fun hrange hos hxs hel => ?_⟩
    have hdef := isUndefined_eq_false i hrange hos hxs (el_ne_el0_of_above_el1 hel)
    exact absurd (hundef.symm.trans hdef) nofun
  · refine ⟨fun hel0 => absurd (hel.symm.trans hel0) nofun,
      fun _ => .inr ⟨hel, Instr.trapped_el2Enabled htrap, rfl⟩, fun _ _ _ habove => ?_⟩
    simp [hel] at habove
  · exact ⟨fun hel => absurd hel hel0, fun hissues => absurd rfl (hissues _), fun _ _ _ _ => ⟨_, rfl⟩⟩

/-! ### The default entry -/

theorem State.not_final_of_mark {s : State} {o : ExcOutcome} (h : s.pe.mark = some o) : ¬ s.final := by
  rintro ⟨hpes, -⟩
  obtain ⟨-, hnone⟩ := hpes (s.self, s.pe) List.mem_cons_self
  exact absurd (h.symm.trans hnone) nofun

/-- Settles O37: the mark is all the entry writes, and it is enough for the state not to be final. -/
theorem faultMarkEntry : Obligations.FaultMarkEntry := by
  intro s o hentry
  have htake := State.takeException_faultMark hentry o
  exact ⟨htake, State.not_final_of_mark (o := o) (by rw [htake])⟩

/-! ### PEs with a mark -/

/-- A turn changes no PE that has a mark: the executing PE is not marked, and the turn writes no other. -/
theorem peOf_of_mark_of_turn {s0 s u : State} {n : Nat} {p : PE} {o : ExcOutcome}
    (hnumbers : (s0.pes.map Prod.fst).Nodup) (hturn : s0.givesTurn s) (hrun : runPe s = .next u)
    (hp : s0.peOf n = some p) (hmark : p.mark = some o) : u.peOf n = some p := by
  have hps : s.peOf n = some p := (State.givesTurn_peOf hnumbers hturn n).trans hp
  rcases runPe_next_cases hrun with rfl | ⟨i, hexecute, he⟩
  · exact hps
  · have hn : n ≠ s.self := by
      rintro rfl
      obtain rfl := Option.some.inj (s.peOf_self.symm.trans hps)
      exact absurd (hmark.symm.trans (State.mark_of_turn_execute hexecute)) nofun
    obtain ⟨-, hself, hothers, -⟩ := exec_frame he
    exact (State.peOf_of_others hself hothers hn).trans hps

/-- Settles O38: only a turn writes a PE, and not one that has a mark. -/
theorem faultMarkNeverCleared : Obligations.FaultMarkNeverCleared := by
  intro s u n p o hpes h hp hmark
  obtain ⟨hnumbers, -⟩ := hpes
  rcases step_next_cases h with ⟨s', hturn, hrun⟩ | ⟨k, ms, -, rfl⟩ | ⟨m, ms, -, rfl⟩ | ⟨m, -, -, rfl⟩
  · exact peOf_of_mark_of_turn hnumbers hturn hrun hp hmark
  · exact hp
  · exact ((s.setSchedule ms).agentMove_peOf m n).trans hp
  · exact (s.agentMove_peOf m n).trans hp

/-! ### The architectural entry -/

/-- Where `Undefined` is taken from EL0 (60_exceptions.md R90). -/
theorem State.excTarget_undefined_of_el0 {s : State} (h : s.pe.pstate.el = .el0) (pc : Word) :
    s.excTarget (.undefined pc) = if s.el2Enabled && s.hcr.tge then .el2 else .el1 := by
  simp [State.excTarget, h]

/-- Above EL0 `Undefined` is taken to the current level (60_exceptions.md R90). -/
theorem State.excTarget_undefined_of_ne_el0 {s : State} (h : s.pe.pstate.el ≠ .el0) (pc : Word) :
    s.excTarget (.undefined pc) = s.pe.pstate.el := by
  unfold State.excTarget
  cases hel : s.pe.pstate.el with
  | el0 => exact absurd hel h
  | el1 => rfl
  | el2 => rfl
  | el3 => rfl

theorem State.excTarget_undefined_ne_el0 (s : State) (pc : Word) : s.excTarget (.undefined pc) ≠ .el0 := by
  by_cases hel : s.pe.pstate.el = .el0
  · rw [State.excTarget_undefined_of_el0 hel]
    split <;> simp
  · rwa [State.excTarget_undefined_of_ne_el0 hel]

/-- What the architectural entry does, whatever the outcome: the exception registers of its target level, the process
state and pc, and what it leaves (60_exceptions.md R96). -/
theorem State.takeException_architectural_pe {s : State} {o : ExcOutcome} (h : s.cfg.trapEntry = .architectural)
    (hlevel : s.excTarget o ≠ .el0) :
    (s.takeException o).pe.excRegs (s.excTarget o)
        = { elr := o.pc, spsr := s.pe.pstate, esr := o.esr, vbar := (s.pe.excRegs (s.excTarget o)).vbar }
    ∧ (s.takeException o).pe.pstate = { el := s.excTarget o, intMasked := true }
    ∧ (s.takeException o).pe.pc
        = (s.pe.excRegs (s.excTarget o)).vbar + vectorOffset s.pe.pstate.el (s.excTarget o)
    ∧ (∀ l', l' ≠ .el0 → l' ≠ s.excTarget o → (s.takeException o).pe.excRegs l' = s.pe.excRegs l')
    ∧ s.pe.SameRegisters (s.takeException o).pe ∧ (s.takeException o).pe.mark = s.pe.mark := by
  have hsame := State.takeException_sameRegisters (s := s) (by simp [h]) o
  rw [State.takeException_architectural h] at hsame ⊢
  exact ⟨PE.enter_excRegs _ o, PE.enter_pstate .., PE.enter_pc ..,
    fun _ h0 hne => PE.enter_excRegs_of_ne _ o hlevel h0 hne, hsame, PE.enter_mark ..⟩

/-- Settles O39: `excTarget` is the level, and both outcomes carry the pc. -/
theorem architecturalEntry : Obligations.ArchitecturalEntry := by
  intro s i o hentry ho
  have hlevel : s.excTarget o ≠ .el0 := by
    rcases ho with rfl | rfl
    · exact s.excTarget_undefined_ne_el0 _
    · simp [State.excTarget]
  have hpc : o.pc = s.pe.pc := by rcases ho with rfl | rfl <;> rfl
  obtain ⟨hregs, hpstate, hnewpc, hothers, hsame, hmark⟩ := State.takeException_architectural_pe hentry hlevel
  refine ⟨s.excTarget o, hlevel, ?_, ?_, ?_, ?_, ?_, ?_, hpstate, hnewpc, hothers, hsame, hmark⟩
  · rintro rfl; rfl
  · rintro rfl
    refine ⟨fun hel hen htge => ?_, fun hel h => ?_, fun hel => State.excTarget_undefined_of_ne_el0 hel _⟩
    · simp [State.excTarget_undefined_of_el0 hel, hen, htge]
    · rcases h with h | h <;> simp [State.excTarget_undefined_of_el0 hel, h]
  · rw [hregs, hpc]
  · rw [hregs]
  · rintro rfl; rw [hregs]; rfl
  · rintro rfl; rw [hregs]; rfl

/-- Settles O40: the syndrome joins fields of the instruction's word. -/
theorem trapSyndromeFields : Obligations.TrapSyndromeFields := by
  intro t _
  simp only [issOfWord, encode, sysFields_sysWord, and_self]

end Sys2Proof.Machine
end

section
/-! SUPPORT. The statements of 60_exceptions.md: a PE's turn, and which agents' entries are required. -/

namespace Sys2Proof.Machine

/-! ### A PE's turn -/

theorem State.fetchBytes_of_read {s : State} {b0 b1 b2 b3 : Byte} (h0 : s.mem.read s.pe.pc.toNat = some b0)
    (h1 : s.mem.read (s.pe.pc.toNat + 1) = some b1) (h2 : s.mem.read (s.pe.pc.toNat + 2) = some b2)
    (h3 : s.mem.read (s.pe.pc.toNat + 3) = some b3) : s.fetchBytes = some [b0, b1, b2, b3] := by
  simp [State.fetchBytes, h0, h1, h2, h3]

theorem decodeBytes_of_decodeWord {b0 b1 b2 b3 : Byte} {i : Instr} (h : decodeWord (b3 ++ b2 ++ b1 ++ b0) = .ok i) :
    decodeBytes [b0, b1, b2, b3] = .ok (i, []) := by
  simp only [decodeBytes, wordOfBytes, h]

/-- Settles O7: the bytes decode to `i`, so the turn is one of executing it. -/
theorem stepRunsDecodedInstruction : Obligations.StepRunsDecodedInstruction := by
  intro s0 s i b0 b1 b2 b3 hturn hmark hend hpc h0 h1 h2 h3 hdecode hwait
  have hexecute : s.turn = .execute i := by
    rw [State.turn_of_word hmark hend hpc (State.fetchBytes_of_read h0 h1 h2 h3) (decodeBytes_of_decodeWord hdecode),
      hwait, if_neg Bool.false_ne_true]
  rw [step_of_givesTurn hturn, runPe, hexecute]

theorem State.turn_of_mark {s : State} {o : ExcOutcome} (h : s.pe.mark = some o) :
    s.turn = .stopped (.exceptionRecorded o) := by
  simp [State.turn, h]

theorem State.turn_of_finished {s : State} (hmark : s.pe.mark = none) (h : endPcOf s.cfg s.self = s.pe.pc) :
    s.turn = .finished := by
  simp [State.turn, hmark, h]

theorem State.turn_of_misaligned {s : State} (hmark : s.pe.mark = none) (hend : endPcOf s.cfg s.self ≠ s.pe.pc)
    (h : ¬ 4 ∣ s.pe.pc.toNat) : s.turn = .refuse (.misalignedPc s.pe.pc) := by
  rw [← pcAligned_iff] at h
  simp [State.turn, hmark, hend, h]

theorem State.turn_of_no_word {s : State} (hmark : s.pe.mark = none) (hend : endPcOf s.cfg s.self ≠ s.pe.pc)
    (hpc : 4 ∣ s.pe.pc.toNat) (h : s.fetchBytes = none) : s.turn = .refuse (.noWordAtPc s.pe.pc) := by
  rw [← pcAligned_iff] at hpc
  simp [State.turn, hmark, hend, hpc, h]

/-- Settles O8, a clause for each kind of turn. -/
theorem turnsThatExecuteNothing : Obligations.TurnsThatExecuteNothing := by
  intro s0 s hturn
  rw [step_of_givesTurn hturn, runPe]
  refine ⟨fun o ho => ?_, fun hmark => ⟨fun hend => ?_, fun hend => ⟨fun hpc => ?_, fun hpc hfetch => ?_⟩⟩⟩
  · rw [State.turn_of_mark ho]
  · rw [State.turn_of_finished hmark hend]
  · rw [State.turn_of_misaligned hmark hend hpc]
  · rw [State.turn_of_no_word hmark hend hpc hfetch]

/-! ### Remote agents -/

theorem State.eel2Of_of_peOf {s : State} {n : Nat} {p : PE} (h : s.peOf n = some p) :
    s.eel2Of n = some p.scrEl3.eel2 := by
  simp [State.eel2Of, h]

theorem TlbiOp.secureEl10_iff {op : TlbiOp} : op.secureEl10 = true ↔ op.security = .secure ∧ op.regime = .el10 := by
  simp [TlbiOp.secureEl10]

/-- `RemoteRequired` for a PE (60_exceptions.md R103). -/
theorem remoteRequired_pe_iff {s : State} {op : TlbiOp} {e : TLBEntry} {n : Nat} {p q : PE}
    (hp : s.peOf n = some p) (hq : s.peOf op.issuer = some q) :
    remoteRequired s op (.pe n) e = true ↔
      n = op.issuer ∨ ¬ (op.security = .secure ∧ op.regime = .el10) ∨ s.cfg.haveEl3 = false
        ∨ p.scrEl3.eel2 = q.scrEl3.eel2 := by
  rw [← TlbiOp.secureEl10_iff]
  simp [remoteRequired, State.eel2Of_of_peOf hp, State.eel2Of_of_peOf hq, or_assoc]

/-- Settles O46: each clause reads off a disjunct of `RemoteRequired`, the last one where no other holds. -/
theorem remotePeNeedsEqualEel2 : Obligations.RemotePeNeedsEqualEel2 := by
  intro s op e n p q hp hq
  rw [remoteRequired_pe_iff hp hq]
  refine ⟨.inl, fun h => .inr (.inl (not_and_or.2 h)), fun h3 => .inr (.inr (.inl h3)), fun hn hsec hregime h3 => ?_⟩
  simp [hn, hsec, hregime, h3]

/-- Settles O47: the conjuncts of `RemoteRequired` for a System MMU (60_exceptions.md R104). -/
theorem systemMmuOnlySecureVmidZero : Obligations.SystemMmuOnlySecureVmidZero := by
  intro s op e n q hq
  simp [remoteRequired, TlbiOp.secureEl10_iff, State.eel2Of_of_peOf hq, and_assoc]

end Sys2Proof.Machine
end

section
/-! SUPPORT. The statements of 70_reset_and_hazards.md: a placed word, and the final states. -/

namespace Sys2Proof.Machine

/-! ### Placing a word -/

/-- Of the configuration, placing a word changes the addresses of `END_PC` alone. -/
theorem exists_endPcAfterLoad_eq (cfg : Config) (n : Nat) (pc : Word) :
    ∃ l, endPcAfterLoad cfg n pc = { cfg with endPc := l } := by
  unfold endPcAfterLoad
  split
  · exact ⟨_, rfl⟩
  · exact ⟨cfg.endPc, rfl⟩

/-- The PE does not have `END_PC` at the placed word, not even at the top of the address space. -/
theorem endPcOf_endPcAfterLoad_ne (cfg : Config) (n : Nat) (pc : Word) : endPcOf (endPcAfterLoad cfg n pc) n ≠ pc := by
  unfold endPcAfterLoad
  split
  · simp [endPcOf]
  · assumption

@[simp] theorem State.withFetchWord_completionObserver (s : State) (nbits w : Nat) :
    (s.withFetchWord nbits w).cfg.completionObserver = s.cfg.completionObserver := by
  obtain ⟨l, hl⟩ := exists_endPcAfterLoad_eq s.cfg s.self s.pe.pc
  simp [State.withFetchWord, hl]

/-- Completion of an operation does not depend on `END_PC`, memory, the PEs or the schedule. -/
theorem State.withFetchWord_complete (s : State) (nbits w : Nat) (op : TlbiOp) :
    (s.withFetchWord nbits w).complete op = s.complete op := by
  obtain ⟨l, hl⟩ := exists_endPcAfterLoad_eq s.cfg s.self s.pe.pc
  simp only [State.complete, State.withFetchWord, hl]
  rfl

/-- The agents have nothing to do of their own accord when no operation has an entry to remove or is complete. -/
theorem State.ownMove_eq_none_iff {s : State} :
    s.ownMove = none ↔ ∀ op ∈ s.pending, op.todo = [] ∧ s.complete op = false := by
  rcases s.ownMove_cases with ⟨k, op, p, hop, hp, hm⟩ | ⟨-, k, op, hop, hc, hm⟩ | ⟨hidle, hm⟩
  · refine ⟨fun h => absurd (hm.symm.trans h) nofun, fun hidle => ?_⟩
    obtain ⟨htodo, -⟩ := hidle op (List.mem_of_getElem? hop)
    exact absurd (htodo ▸ hp) List.not_mem_nil
  · refine ⟨fun h => absurd (hm.symm.trans h) nofun, fun hidle => ?_⟩
    obtain ⟨-, hincomplete⟩ := hidle op (List.mem_of_getElem? hop)
    exact absurd (hc.symm.trans hincomplete) nofun
  · exact iff_of_true hm hidle

/-- Placing a word enables no move of the agents' own accord. -/
theorem State.withFetchWord_ownMove_eq_none {s : State} (h : s.ownMove = none) (nbits w : Nat) :
    (s.withFetchWord nbits w).ownMove = none := by
  simp only [State.ownMove_eq_none_iff, State.withFetchWord_complete] at h ⊢
  exact h

/-- The very next step is the turn of the PE whose word was placed, and the schedule is then empty. -/
theorem State.withFetchWord_givesTurn (s : State) (nbits w : Nat) :
    (s.withFetchWord nbits w).givesTurn ((s.withFetchWord nbits w).setSchedule []) := by
  cases hm : s.ownMove with
  | none =>
    have hschedule : (s.withFetchWord nbits w).schedule = [] := by simp [State.withFetchWord, hm]
    refine .inl ⟨hschedule, State.withFetchWord_ownMove_eq_none hm nbits w, ?_⟩
    rw [State.setSchedule, ← hschedule]
  | some m =>
    refine .inr ⟨s.self, [], by simp [State.withFetchWord, hm], ?_⟩
    exact if_pos rfl

/-- The PE finds the four bytes of the placed word. -/
theorem State.withFetchWord_fetchBytes (s : State) (w : InstrWord) :
    (s.withFetchWord 32 w.toNat).fetchBytes = some (bytesOfWord w) := by
  have hw : BitVec.ofNat 32 (w.toNat % 2 ^ 32) = w := by
    rw [Nat.mod_eq_of_lt w.isLt, BitVec.ofNat_toNat, BitVec.setWidth_eq]
  have hread : ∀ j (h : j < (bytesOfWord w).length),
      (s.withFetchWord 32 w.toNat).mem.read (s.pe.pc.toNat + j) = some (bytesOfWord w)[j] := by
    intro j h
    simp only [State.withFetchWord, hw]
    exact Memory.read_writeBytes h
  have hlength : (bytesOfWord w).length = 4 := rfl
  exact State.fetchBytes_of_read (hread 0 (by omega)) (hread 1 (by omega)) (hread 2 (by omega)) (hread 3 (by omega))

/-- Settles O10: the step is the PE's turn, and the four placed bytes decode to `i`. -/
theorem placedWordRunsNext : Obligations.PlacedWordRunsNext := by
  intro s i hwf hpc hobserver
  have hturn := State.turn_of_word (s := (s.withFetchWord 32 (encode i).toNat).setSchedule []) rfl
    (endPcOf_endPcAfterLoad_ne _ _ _) (pcAligned_iff.2 hpc) (s.withFetchWord_fetchBytes (encode i))
    (decodeOfEncode i [] hwf)
  have hwait : ((s.withFetchWord 32 (encode i).toNat).setSchedule []).mustWait i = false := by
    simp [State.mustWait, hobserver]
  rw [hwait, if_neg Bool.false_ne_true] at hturn
  rw [step_of_givesTurn (s.withFetchWord_givesTurn 32 _), runPe, hturn]

/-! ### Final states -/

/-- In a final state with nothing scheduled it is the executing PE's turn, and it is finished. -/
theorem step_of_final {s : State} (h : s.final) (hs : s.schedule = []) : step s = .next s := by
  obtain ⟨hpes, hpending⟩ := h
  obtain ⟨hend, hmark⟩ := hpes (s.self, s.pe) List.mem_cons_self
  rw [step_of_givesTurn (.inl ⟨hs, State.ownMove_of_pending_nil hpending, rfl⟩), runPe,
    State.turn_of_finished hmark hend]

/-- Settles O60, with a conjunct of `State.final` for each of the two causes. -/
theorem finalStatesAreAtRest : Obligations.FinalStatesAreAtRest := by
  refine ⟨fun s => step_of_final, fun s hpending ⟨_, hnil⟩ => hpending hnil, ?_⟩
  rintro s o ⟨q, hq, hmark⟩ ⟨hpes, -⟩
  obtain ⟨-, hnone⟩ := hpes q hq
  exact absurd (hmark.symm.trans hnone) nofun

end Sys2Proof.Machine
end

section
/-! SUPPORT. The words of 95_test_vectors.md section 2, from the round trip and the rejection of 30_encoding.md. -/

namespace Sys2Proof

/-- Bytes that are a well-formed instruction's own, with none after them, decode to it. -/
theorem decodeBytes_of_encodeBytes_eq {i : Instr} {bytes : List Byte} (hwf : i.wf = true) (h : encodeBytes i = bytes) :
    decodeBytes bytes = .ok (i, []) := by
  rw [← h, ← List.append_nil (encodeBytes i)]
  exact decodeOfEncode i [] hwf

/-- Settles O6: the six byte strings are their instructions' own, and the two words are in neither row (one has
`op2` = 2, the other `L` = 1). -/
theorem wordsOfTheSpecDecode : Obligations.WordsOfTheSpecDecode :=
  ⟨decodeBytes_of_encodeBytes_eq rfl rfl, decodeBytes_of_encodeBytes_eq rfl rfl,
    decodeBytes_of_encodeBytes_eq rfl rfl, decodeBytes_of_encodeBytes_eq rfl rfl,
    decodeBytes_of_encodeBytes_eq rfl rfl, decodeBytes_of_encodeBytes_eq rfl rfl,
    decodeWord_of_inNeitherRow (by decide) (by decide), decodeWord_of_inNeitherRow (by decide) (by decide)⟩

end Sys2Proof
end
